-- ==== Sys2Proof/Word.lean ====
section
/-! DEFINITION. The word types of the two blocks (30_encoding.md R50, R51; 10_state.md R14, R15; 20_memory.md R37: bit 0 is
the least significant bit, bit 7 of a byte the most significant) and the header's field widths (20_memory.md R33). -/

namespace Sys2Proof

/-- One byte: a sample, or the byte that carries a delta (00_scope.md R2, R6: `W_SAMPLE` and `W_DELTA` are 8). -/
abbrev Byte := BitVec 8

/-- An input beat as a word, format `IN9` = {first, data[7:0]} (R50). -/
abbrev In9 := BitVec 9

/-- An output beat as a word, format `OUT10` = {err, first, data[7:0]} (R51). -/
abbrev Out10 := BitVec 10

/-- The sticky fault register of a block (R14). -/
abbrev FaultBits := BitVec 2

/-- The `status[2:0]` port of a block (R15). -/
abbrev Status := BitVec 3

end Sys2Proof
end

