-- ==== Sys2Proof/Syntax.lean ====
section
/-! DEFINITION. What can be said to the machine: the four operations (one constructor of `Instr` per row of
spec/opcode_table.json), beats, the lines and pseudo-operations of the trace notation (30_encoding.md R61, R62), the input pins
(R59), the host's procedure calls (42_host_contract.md) and the moves of the agents (60_exceptions.md R163). -/

namespace Sys2Proof

/-- The two blocks, and with them the two input and output ports (R1, R53). -/
inductive Port where
  | encoder
  | decoder
  deriving DecidableEq, Repr

/-- The operations an input beat can select (R53). The operand is the byte `in.data`. -/
inductive Instr where
  /-- `ENC.FIRST b` (R71): start a channel stream with sample `b`. -/
  | encFirst (b : Byte)
  /-- `ENC.NEXT b` (R72): encode sample `b` as the saturating difference from the predictor. -/
  | encNext (b : Byte)
  /-- `DEC.FIRST b` (R91): start decoding a channel stream whose raw first sample is `b`. -/
  | decFirst (b : Byte)
  /-- `DEC.NEXT b` (R92): reconstruct the next sample from the signed delta carried by `b`. -/
  | decNext (b : Byte)
  deriving DecidableEq, Repr

/-- The port an operation arrives on (R53). -/
def Instr.port : Instr → Port
  | .encFirst _ => .encoder
  | .encNext _ => .encoder
  | .decFirst _ => .decoder
  | .decNext _ => .decoder

/-- Whether an operation's beat carries `first = 1` (R53). -/
def Instr.isFirst : Instr → Bool
  | .encFirst _ => true
  | .encNext _ => false
  | .decFirst _ => true
  | .decNext _ => false

/-- The operand byte of an operation (R70, R90: one operand, the input beat). -/
def Instr.byte : Instr → Byte
  | .encFirst b => b
  | .encNext b => b
  | .decFirst b => b
  | .decNext b => b

/-- An input beat: one byte with its marker (R50). -/
structure InBeat where
  first : Bool
  data : Byte
  deriving DecidableEq, Repr

/-- An output beat: `(first, err, data)` (R51). -/
structure OutBeat where
  first : Bool
  err : Bool
  data : Byte
  deriving DecidableEq, Repr

/-- The four mnemonics of the trace notation (R61). -/
inductive Mnemonic where
  | encFirst
  | encNext
  | decFirst
  | decNext
  deriving DecidableEq, Repr

/-- The operand of a trace line as it is written: an unsigned number, or a number with an explicit sign (R61). -/
inductive TraceOperand where
  | byte (n : Nat)
  | delta (e : Int)
  deriving DecidableEq, Repr

/-- One line of a trace, `<mnemonic> <byte>` (R61). -/
structure TraceLine where
  mnemonic : Mnemonic
  operand : TraceOperand
  deriving DecidableEq, Repr

/-- The pseudo-operations of the trace notation (R62). -/
inductive PseudoOp where
  | reset (p : Port)
  | encStream (s : List Byte)
  | decStream (b : List Byte)
  | encPacket (channels : List (List Byte))
  | decPacket (channels : List (List Byte))
  deriving DecidableEq, Repr

/-- The input pins of one block as sampled at a rising edge of its `clk` (R59). -/
structure PinsIn where
  rst : Bool
  inValid : Bool
  inFirst : Bool
  inData : Byte
  outReady : Bool
  deriving DecidableEq, Repr

/-- A frame (the source's SampleBuffer) as the host hands it to `push`: a sample count and one array per channel (R112). -/
structure Frame where
  sampleCount : Nat
  channels : List (List Byte)
  deriving DecidableEq, Repr

/-- The calls of the host's software (42_host_contract.md): none has an encoding. -/
inductive HostCall where
  /-- Create a host Encoder with its declared sample rate and channel count (R111). How they are declared is left open
  (91_not_in_source.md N14): one call that takes both is the model's own, DESIGN CHOICE (notes/assumptions/34.md). -/
  | create (rate : BitVec 32) (channelCount : BitVec 16)
  /-- `push(frame)` (R112); `none` is the null frame. -/
  | push (frame : Option Frame)
  /-- `finish()` (R113). -/
  | finish
  /-- `buildPacket()` (R114, R118). -/
  | buildPacket
  /-- `write(packet)` of the Container writer (R117). -/
  | write
  /-- A file with these bytes comes to the reader from outside (R36: where a packet lives is the host's affair). -/
  | load (bytes : List Byte)
  /-- `read()` of the Container reader (R119). -/
  | read
  /-- `decode(packet)` of the host Decoder (R120). -/
  | decode
  /-- Read the byte `File[off]` (00_scope.md R9, 20_memory.md R36: random access to the file's raw bytes). -/
  | fileByte (off : Nat)
  deriving DecidableEq, Repr

/-- One move of one agent (R163, R130). The list of moves still to come stands in the state. -/
inductive Turn where
  /-- The host gives the source of port `p` one more word to offer (R130: any 9-bit word). -/
  | offer (p : Port) (w : In9)
  /-- The block's own step: accept the offered beat and execute its operation (R163). -/
  | block (p : Port)
  /-- The sink's step: take the head of `outq` (R163). -/
  | sink (p : Port)
  /-- `RESET` of one block: one rising edge with `rst = 1` (R62, R170). -/
  | reset (p : Port)
  /-- One rising edge of the block's `clk` with these pins (R60, R170). -/
  | edge (p : Port) (pins : PinsIn)
  /-- The wire from the encoder's output to the decoder's source carries one beat (R52). -/
  | forward
  /-- Two agents drive the input of one port at once (R40 c). -/
  | contend (p : Port) (w₁ w₂ : In9)
  /-- The host's software is called (42_host_contract.md). -/
  | host (call : HostCall)
  deriving DecidableEq, Repr

end Sys2Proof
end

