-- ==== Sys2Proof/Config.lean ====
section
/-! DEFINITION. The parameters of 00_scope.md R6 and the free values. A fixed parameter is a number; an OPEN one, and every
value the spec leaves unspecified, is an opaque constant with no body, so no proof can rest on it. -/

namespace Sys2Proof.Config

/-- `DELTA_MAX` (R6). -/
def deltaMax : Int := 127

/-- `DELTA_MIN` (R6). -/
def deltaMin : Int := -128

/-- `SAMPLE_MIN` (R6). -/
def sampleMin : Int := 0

/-- `SAMPLE_MAX` (R6). -/
def sampleMax : Int := 255

/-- `HDR_BYTES` (R6): the size of the container header. -/
def hdrBytes : Nat := 14

/-- One more than `T_MAX` (R6): the header's field for `totalSamples` is an unsigned 32-bit field. -/
def totalLimit : Nat := 2 ^ 32

/-- `LAT` (R6, R60): OPEN, any natural number. -/
opaque lat : Nat

/-- `QDEPTH` less one (R6): OPEN, so that `qdepth` is any integer that is at least 1. -/
opaque qdepthPred : Nat

/-- `QDEPTH` (R6, R18): the capacity of an output queue, at least 1. -/
def qdepth : Nat := qdepthPred + 1

/-- FREE VALUE: the byte block `p` shows or keeps where the spec leaves it unspecified, by how many it has drawn before: the
`data` of a `PROTO` beat (R72, R92, R151) and `prev` after a reset during a run (R21). -/
opaque unspecifiedByte : Port → Nat → Byte

/-- FREE VALUE: what the header's 32-bit field holds for a total of samples that does not fit it (R33 and R118 write the total, and
R6 bounds the field: no value is stated). -/
opaque unstatedTotal : Nat → BitVec 32

/-- FREE VALUE: the `out_err`, `out_first` and `out_data` pins of block `p` while `out_valid = 0` (R60 gives them no value). -/
opaque idleOutput : Port → Nat → Out10

end Sys2Proof.Config
end

