-- ==== Sys2Proof/Machine/State.lean ====
section
/-! DEFINITION. The state of the machine, as plain data: the two blocks (10_state.md R10, R11), what stands on their ports (R24,
60_exceptions.md R163), the host's software around them (42_host_contract.md R111 to R120), and the moves still to come. -/

namespace Sys2Proof.Machine

/-- An entry of an output queue: the beat, and how many edges of `clk` have passed since it was appended (R18, R60). -/
structure QEntry where
  beat : OutBeat
  age : Nat
  deriving DecidableEq, Repr

/-- One block (R10, R11): the same four pieces of state in `delta_encoder` and in `delta_decoder`. -/
structure Block where
  /-- The predictor: the reconstructed value of the previous sample (R12). -/
  prev : Byte
  /-- A channel stream has been started since reset (R13). -/
  run : Bool
  /-- The sticky fault bits: bit 0 `PROTO`, bit 1 `INVALID_DATA` (R14). -/
  fault : FaultBits
  /-- The output queue, oldest first (R18). -/
  outq : List QEntry
  /-- The model's own: how many free values this block has drawn (notes/assumptions/3.md). -/
  draws : Nat
  deriving DecidableEq, Repr

/-- A byte memory of `len` bytes: the container file `File[0 .. len)` (20_memory.md R33). `cells` lists the bytes that are not
zero, by strictly rising offset. -/
structure Memory where
  len : Nat
  cells : List Host.Cell
  deriving DecidableEq, Repr

/-- The lifecycle of a host Encoder (R115); `opened` is the source's `Open`. -/
inductive Lifecycle where
  | opened
  | finalized
  | consumed
  deriving DecidableEq, Repr

/-- The state of a host Encoder (R111). -/
structure HostEncoder where
  channelCount : BitVec 16
  sampleRate : BitVec 32
  /-- Per channel, the slices of the frames pushed so far, in arrival order. -/
  queues : List (List (List Byte))
  totalSamples : Nat
  life : Lifecycle
  deriving DecidableEq, Repr

/-- The three fields of a container header (20_memory.md R33). -/
structure Header where
  sampleRate : BitVec 32
  channelCount : BitVec 16
  totalSamples : BitVec 32
  deriving DecidableEq, Repr

/-- What the Container reader hands on: the header fields and the payload slice (R119). -/
structure Parsed where
  header : Header
  payload : List Byte
  deriving DecidableEq, Repr

/-- A decoded SampleBuffer: planar channels and the header's sample rate (R120). -/
structure SampleBuffer where
  sampleRate : BitVec 32
  channels : List (List Byte)
  deriving DecidableEq, Repr

/-- The error kinds of the host's components (R121). -/
inductive ErrKind where
  | invalidArgument
  | streamClosed
  | alreadyProduced
  | invalidData
  | invalidState
  deriving DecidableEq, Repr

/-- The typed result of a host call, given to its immediate caller (R122). -/
inductive Reply where
  | ok
  | failed (kind : ErrKind)
  | packet (image : Memory)
  | header (parsed : Parsed)
  | samples (buffer : SampleBuffer)
  | byte (value : Byte)
  deriving DecidableEq, Repr

/-- The host's software: the Encoder (R111), the packet it returned (R114), the container file (R117), what the reader handed on
(R119), and the results given so far, oldest first (R122). -/
structure HostState where
  encoder : Option HostEncoder
  packet : Option Memory
  file : Memory
  parsed : Option Parsed
  replies : List Reply
  deriving DecidableEq, Repr

/-- The machine: one `delta_encoder` and one `delta_decoder`. How many instances of each a system has is left open (R22 speaks of
two of either, R44 lets a host give each channel its own): one of each is the model's choice, DESIGN CHOICE
(notes/assumptions/28.md). -/
structure State where
  /-- `delta_encoder` (R10). -/
  enc : Block
  /-- `delta_decoder` (R11). -/
  dec : Block
  /-- The words the encoder's source has still to offer, the offered one first (R163, R181). -/
  encSource : List In9
  /-- The words the decoder's source has still to offer, the offered one first. -/
  decSource : List In9
  /-- The beats the encoder's sink has taken, oldest first (R24). -/
  encTaken : List OutBeat
  /-- The beats the decoder's sink has taken, oldest first. -/
  decTaken : List OutBeat
  /-- The host's software (R5, R20: no part of a block). -/
  host : HostState
  /-- The moves of the agents still to come, the next one first (notes/assumptions/6.md). -/
  turns : List Turn
  deriving DecidableEq, Repr

/-- Why the machine stops with a fault. The hardware's own faults `PROTO` and `INVALID_DATA` are none of these: they set a bit
and the block goes on (R154). -/
inductive Fault where
  /-- Raised by the host's read of one byte of the file (`HostCall.fileByte`) at an offset the file does not have (R33:
  `File[0 .. 14 + N*T)`), and by `buildPacket` where a payload would reach past its packet's `14 + N*T` bytes, which needs queues that
  hold more samples than were counted (no state that meets `HostState.Inv`); safe: the machine stops, and no byte is made up. -/
  | offsetOutsideFile (off : Nat)
  deriving DecidableEq, Repr

/-- Why the machine gives a move no meaning. -/
inductive Refusal where
  /-- An operation that has no meaning yet (an arm of `exec`); safe. No arm answers with it. -/
  | notModelled (mnemonic : String)
  /-- Raised by `Turn.contend`: two agents drive one input port, which "is refused, not given a meaning" (R40 c, U12); safe. -/
  | twoDrivers (p : Port)
  /-- Raised by every call on the host Encoder before one is created (R111: a call is a call of an Encoder); safe. -/
  | noEncoder
  /-- Raised by `create` with a channel count of 0 (R111: N >= 1); safe. -/
  | zeroChannels
  /-- Raised by `push` of a null frame to an open Encoder (U21: refuse); safe. -/
  | nullFrame
  /-- Raised by `push` of a frame whose channel arrays have unequal lengths (U20: refuse); safe. -/
  | unequalFrame
  /-- Raised by `write` after the Encoder has finalized while there is no packet to write (R117); safe. -/
  | noPacket
  /-- Raised by `decode` when no packet has been read (R120); safe. -/
  | nothingRead
  deriving DecidableEq, Repr

/-- The reset state of a block (R21). The spec gives `prev` no value: 0 is the model's choice, DESIGN CHOICE, unsafe
(notes/assumptions/1.md). -/
def Block.reset : Block := { prev := 0, run := false, fault := 0, outq := [], draws := 0 }

/-- The host's software before any call: no Encoder created, an empty file (notes/assumptions/20.md). -/
def HostState.reset : HostState :=
  { encoder := none, packet := none, file := { len := 0, cells := [] }, parsed := none, replies := [] }

/-- The machine right after reset (R21, R170): both blocks in their reset state, nothing offered, nothing taken. -/
def State.reset : State :=
  { enc := Block.reset, dec := Block.reset, encSource := [], decSource := [], encTaken := [], decTaken := [],
    host := HostState.reset, turns := [] }

end Sys2Proof.Machine
end

