-- ==== Sys2Proof/Machine/Image.lean ====
section
/-! DEFINITION. The byte memory of the container file (20_memory.md R33 to R36): the one thing of this hardware's surroundings
that is read and written by offset. The blocks have no memory (R30). -/

namespace Sys2Proof.Machine

/-- What an offset inside the file reads as when no cell lists it (notes/assumptions/20.md). -/
def unlisted : Byte := 0

/-- The byte a list of cells gives an offset. -/
def lookupCell : List Host.Cell → Nat → Byte
  | [], _ => unlisted
  | (k, v) :: rest, a => if k = a then v else lookupCell rest a

/-- Write one cell into a list in canonical form; writing what an unlisted offset reads as removes the entry. -/
def putCell (a : Nat) (b : Byte) : List Host.Cell → List Host.Cell
  | [] => if b = unlisted then [] else [(a, b)]
  | (k, v) :: rest =>
    if a < k then (if b = unlisted then (k, v) :: rest else (a, b) :: (k, v) :: rest)
    else if a = k then (if b = unlisted then rest else (a, b) :: rest)
    else (k, v) :: putCell a b rest

/-- Write a run of bytes from an offset on. -/
def putCells : Nat → List Byte → List Host.Cell → List Host.Cell
  | _, [], cells => cells
  | a, b :: bs, cells => putCells (a + 1) bs (putCell a b cells)

/-- Offsets strictly rising from `low` on and below `high`, and no entry that an unlisted offset already reads as. -/
def cellsOk (low high : Nat) : List Host.Cell → Bool
  | [] => true
  | (k, v) :: rest => decide (low ≤ k) && decide (k < high) && decide (v ≠ unlisted) && cellsOk (k + 1) high rest

/-- The canonical form of a memory. -/
def Memory.wf (m : Memory) : Bool := cellsOk 0 m.len m.cells

/-- A memory of `n` bytes, none of them written. -/
def Memory.blank (n : Nat) : Memory := { len := n, cells := [] }

/-- `File[off]` (00_scope.md R9): nothing, where the file has no such offset. -/
def Memory.read (m : Memory) (off : Nat) : Option Byte :=
  if off < m.len then some (lookupCell m.cells off) else none

/-- The bytes at `off`, `off + 1`, … as far as `n` bytes, read out of the cells. -/
def readCells (cells : List Host.Cell) : Nat → Nat → List Byte
  | _, 0 => []
  | off, n + 1 => lookupCell cells off :: readCells cells (off + 1) n

/-- `File[off .. off + n)`: nothing, where the file does not have all of these bytes. -/
def Memory.slice (m : Memory) (off n : Nat) : Option (List Byte) :=
  if off + n ≤ m.len then some (readCells m.cells off n) else none

/-- Store bytes at `File[off ..]`: nothing, where the file does not have all of these offsets. -/
def Memory.store (m : Memory) (off : Nat) (bs : List Byte) : Option Memory :=
  if off + bs.length ≤ m.len then some { m with cells := putCells off bs m.cells } else none

/-- The memory that holds exactly these bytes. -/
def Memory.ofBytes (bs : List Byte) : Memory := { len := bs.length, cells := putCells 0 bs [] }

/-- All bytes of a memory, in order of offset. -/
def Memory.bytes (m : Memory) : List Byte := readCells m.cells 0 m.len

end Sys2Proof.Machine
end

