-- ==== Sys2Proof/Machine/Container.lean ====
section
/-! DEFINITION. The container header and the reader's checks (20_memory.md R33 to R35; 42_host_contract.md R119, R125 to R127). -/

namespace Sys2Proof.Machine

/-- The magic `"asif"` as bytes (R34). -/
def magic : List Byte := [0x61, 0x73, 0x69, 0x66]

/-- The `k` bytes of a number, the least significant first (R34). -/
def leBytes : Nat → Nat → List Byte
  | 0, _ => []
  | k + 1, v => BitVec.ofNat 8 v :: leBytes k (v / 256)

/-- The number that bytes spell, the least significant first (R34). -/
def leValue : List Byte → Nat
  | [] => 0
  | b :: bs => b.toNat + 256 * leValue bs

/-- The 14 bytes of a header (R33, R34). -/
def writeHeader (h : Header) : List Byte :=
  magic ++ leBytes 4 h.sampleRate.toNat ++ leBytes 2 h.channelCount.toNat ++ leBytes 4 h.totalSamples.toNat

/-- `off(c, i)` (R35): where byte `i` of channel `c` of a packet with `t` samples per channel lies. -/
def payloadOffset (t c i : Nat) : Nat := Config.hdrBytes + c * t + i

/-- Header parsing, checks (1) to (5) of R119; nothing stands for `InvalidData`, the one kind of all failures. -/
def parseHeader (m : Memory) : Option Header :=
  match m.slice 0 4, m.slice 4 4, m.slice 8 2, m.slice 10 4 with
  | some g, some rate, some n, some t =>
    if g ≠ magic then none
    else if leValue n = 0 then none
    else if leValue t = 0 then none
    else some { sampleRate := BitVec.ofNat 32 (leValue rate), channelCount := BitVec.ofNat 16 (leValue n),
                totalSamples := BitVec.ofNat 32 (leValue t) }
  | _, _, _, _ => none

/-- The whole of `read()` (R119): the header, then check (6), the size computed without wrap, and (7), the payload slice of exactly
`N*T` bytes; bytes beyond are ignored (R126). -/
def readFile (m : Memory) : Option Parsed :=
  match parseHeader m with
  | none => none
  | some h =>
    match m.slice Config.hdrBytes (h.channelCount.toNat * h.totalSamples.toNat) with
    | none => none
    | some payload => some { header := h, payload := payload }

end Sys2Proof.Machine
end

