-- ==== Sys2Proof/Decode.lean ====
section
/-! DEFINITION. Decoding and encoding of beats (30_encoding.md R50 to R53, opcode_table.json). The operation is chosen by the
port and by bit 8, `first`, and by nothing else (R53); every word of either port is an operation (R57).

A beat is never stored by the hardware (20_memory.md R30) and the port is not in its word. To write a beat of a NAMED port down
in one place the model uses a TAGGED BEAT, DESIGN CHOICE (notes/assumptions/8.md): the 9-bit word with one more bit above it,
bit 9, that is 0 for `delta_encoder` and 1 for `delta_decoder`, laid out as two bytes, the low byte first. -/

namespace Sys2Proof

/-- The word of an input beat: `{first, data[7:0]}` (R50). -/
def InBeat.word (b : InBeat) : In9 := BitVec.ofBool b.first ++ b.data

/-- The word on the input pins, `{in_first, in_data}` (R60). -/
def PinsIn.word (pins : PinsIn) : In9 := InBeat.word { first := pins.inFirst, data := pins.inData }

/-- The fields of an `IN9` word (R50). -/
def InBeat.ofWord (w : In9) : InBeat := { first := w.getLsbD 8, data := w.extractLsb' 0 8 }

/-- The word of an output beat: `{err, first, data[7:0]}` (R51). -/
def OutBeat.word (b : OutBeat) : Out10 := BitVec.ofBool b.err ++ BitVec.ofBool b.first ++ b.data

/-- The fields of an `OUT10` word (R51). -/
def OutBeat.ofWord (w : Out10) : OutBeat :=
  { first := w.getLsbD 8, err := w.getLsbD 9, data := w.extractLsb' 0 8 }

/-- The operation an input beat selects on a port (R53). -/
def decodeBeat (p : Port) (b : InBeat) : Instr :=
  match p, b.first with
  | .encoder, true => .encFirst b.data
  | .encoder, false => .encNext b.data
  | .decoder, true => .decFirst b.data
  | .decoder, false => .decNext b.data

/-- The decoder of beats: total on every word of either port (R53, R57). -/
def decode (p : Port) (w : In9) : Instr := decodeBeat p (InBeat.ofWord w)

/-- Why a byte string is no tagged beat. -/
inductive DecodeError where
  /-- There is no byte at all. -/
  | noBytes
  /-- There is one byte where a tagged beat has two. -/
  | halfBeat
  /-- A bit above the port tag is set: no `IN9` word has it (R50). -/
  | bitsAboveBeat
  deriving DecidableEq, Repr

/-- What decoding a byte string answers. -/
inductive Decoded where
  | instr (i : Instr) (rest : List Byte)
  | rejected (e : DecodeError)
  deriving DecidableEq, Repr

/-- The port a tag bit names. -/
def portOfTag (tag : Bool) : Port := if tag then .decoder else .encoder

/-- The tag bit of a port. -/
def Port.tag : Port → Bool
  | .encoder => false
  | .decoder => true

/-- Decode the tagged beat at the head of a byte string: total, and every rejection has a name. -/
def decodeBytes : List Byte → Decoded
  | [] => .rejected .noBytes
  | [_] => .rejected .halfBeat
  | lo :: hi :: rest =>
    if hi.toNat < 4 then
      .instr (decode (portOfTag (hi.getLsbD 1)) (BitVec.ofBool (hi.getLsbD 0) ++ lo)) rest
    else .rejected .bitsAboveBeat

/-- The two bytes of a number of at most 16 bits, the low byte first. -/
def beatBytes (w : Nat) : List Byte := [BitVec.ofNat 8 w, BitVec.ofNat 8 (w / 256)]

/-- The instruction of `nbits` bits whose bits are `w`, numbered as spec/opcode_table.json numbers them. The table's rows of the
two ports share their words (R53), so a word without the tag bit 9 is read as one of `delta_encoder`. -/
def decodeTableWord (nbits w : Nat) : Option Instr :=
  let v := w % 2 ^ nbits
  if v < 65536 then
    match decodeBytes (beatBytes v) with
    | .instr i _ => some i
    | .rejected _ => none
  else none

/-- The port and the word of an operation (R53, R71, R72, R91, R92: `0x100 + b` for a FIRST, `b` for a NEXT). -/
def encode : Instr → Port × In9
  | .encFirst b => (.encoder, BitVec.ofNat 9 (0x100 + b.toNat))
  | .encNext b => (.encoder, BitVec.ofNat 9 b.toNat)
  | .decFirst b => (.decoder, BitVec.ofNat 9 (0x100 + b.toNat))
  | .decNext b => (.decoder, BitVec.ofNat 9 b.toNat)

/-- The tagged beat of an operation as bytes. -/
def encodeBytes (i : Instr) : List Byte :=
  [i.byte, BitVec.ofBool i.port.tag ++ BitVec.ofBool i.isFirst |>.zeroExtend 8]

end Sys2Proof
end

