-- ==== Sys2Proof/Machine/Flags.lean ====
section
/-! DEFINITION. The fault bits, the `err` bit and the `status` port (10_state.md R14, R15; 60_exceptions.md R150, R151, R154). -/

namespace Sys2Proof.Machine

/-- The faults of the hardware: "these two are all" (R152). -/
inductive Cause where
  | proto
  | invalidData
  deriving DecidableEq, Repr

/-- The code of a fault, the number of its bit in `fault` (R150, R151). -/
def Cause.code : Cause → Nat
  | .proto => 0
  | .invalidData => 1

/-- The bit of `fault` a cause sets (R14). -/
def Cause.mask (c : Cause) : FaultBits := 1#2 <<< c.code

/-- Set the bit of a cause; a bit already set stays set (R14). -/
def setFault (c : Cause) (f : FaultBits) : FaultBits := f ||| c.mask

/-- The `err` bit of a beat: the fault register is not zero (R51). -/
def errOf (f : FaultBits) : Bool := f != 0

/-- The `status` port: `{fault[1], fault[0], run}` (R15). -/
def Block.status (b : Block) : Status := b.fault ++ BitVec.ofBool b.run

end Sys2Proof.Machine
end

