-- ==== Sys2Proof/Machine/Operands.lean ====
section
/-! DEFINITION. The pure functions of 00_scope.md R8 over unbounded integers (R7), the operand forms of 30_encoding.md R56, and
the arithmetic of one ENC.NEXT (40_encoder_ops.md R72) and one DEC.NEXT (41_decoder_ops.md R92). Nothing wraps: the one place that
narrows an integer to a byte is `toByte`, and the rules keep its argument in 0..255 (R75, R92). -/

namespace Sys2Proof.Machine

/-- `clamp(lo, hi, v)` (R8). -/
def clamp (lo hi v : Int) : Int := if v < lo then lo else if hi < v then hi else v

/-- `clampDelta(v)` (R8): the saturating clamp to -128..127. -/
def clampDelta (v : Int) : Int := clamp Config.deltaMin Config.deltaMax v

/-- `clampToUint8(v)` (R8). -/
def clampToUint8 (v : Int) : Int := clamp Config.sampleMin Config.sampleMax v

/-- Write an integer of 0..255 as a byte. -/
def toByte (v : Int) : Byte := BitVec.ofNat 8 v.toNat

/-- `tc8(e)` (R8): a signed value of -128..127 as its byte, in two's complement (R55). -/
def tc8 (e : Int) : Byte := if 0 ≤ e then toByte e else toByte (e + 256)

/-- A byte read as an unsigned integer 0..255 (R56). -/
def unsigned (b : Byte) : Int := b.toNat

/-- `s8(b)` (R8): a byte read as a signed integer -128..127 (R56). -/
def s8 (b : Byte) : Int := if b.toNat ≤ 127 then unsigned b else unsigned b - 256

/-- The raw delta `d := s[i] - prev` of ENC.NEXT (R72): an integer in -255..255 (R74). -/
def rawDelta (prev s : Byte) : Int := unsigned s - unsigned prev

/-- The emitted delta `e` of ENC.NEXT, branch by branch (R72). -/
def emittedDelta (prev s : Byte) : Int :=
  let d := rawDelta prev s
  if d > 127 then 127 else if d < -128 then -128 else d

/-- The reconstructed value `r` of ENC.NEXT, branch by branch (R72): "not the original `s[i]`". -/
def reconstructed (prev s : Byte) : Int :=
  let d := rawDelta prev s
  if d > 127 then unsigned prev + 127 else if d < -128 then unsigned prev - 128 else unsigned s

/-- The sum of DEC.NEXT (R92): an integer in -128..382 (R94). -/
def decodeSum (prev b : Byte) : Int := unsigned prev + s8 b

/-- The range test of DEC.NEXT (R92): the sum lies outside 0..255. -/
def sumOutOfRange (sum : Int) : Bool := decide (sum < 0 ∨ sum > 255)

end Sys2Proof.Machine
end

