-- ==== Sys2Proof/Machine/Ops.lean ====
section
/-! DEFINITION. The named operations on a block and on the state: emit, raise (the one way a fault is taken), reset (the one way
back), the output queue, and access to a block, its source and its sink by port. -/

namespace Sys2Proof.Machine

/-- `emit(first, err, data)` with `err = (fault != 0)` as the register stands now (R9, R70, R90): one beat is appended to
`outq`. -/
def Block.emit (first : Bool) (data : Byte) (b : Block) : Block :=
  { b with outq := b.outq ++ [{ beat := { first := first, err := errOf b.fault, data := data }, age := 0 }] }

/-- `raise <Fault>` (R154): the named bit of `fault` is set, and nothing else: nothing is saved, control goes nowhere. -/
def Block.raise (c : Cause) (b : Block) : Block := { b with fault := setFault c b.fault }

/-- A FIRST beat (R71, R91): it writes `prev` and `run` without reading them and passes the byte on. -/
def Block.startStream (data : Byte) (b : Block) : Block :=
  Block.emit true data { b with prev := data, run := true }

/-- A NEXT beat while `run = 0` (R151): `PROTO`, and a beat whose `data` is unspecified, a free value (notes/assumptions/3.md);
`prev` and `run` are unchanged. -/
def Block.protoNext (p : Port) (b : Block) : Block :=
  Block.emit false (Config.unspecifiedByte p b.draws) { Block.raise .proto b with draws := b.draws + 1 }

/-- ENC.NEXT on the block's own state (R72). -/
def Block.encodeNext (p : Port) (s : Byte) (b : Block) : Block :=
  if b.run then
    Block.emit false (tc8 (emittedDelta b.prev s)) { b with prev := toByte (reconstructed b.prev s) }
  else Block.protoNext p b

/-- The fault test of DEC.NEXT (R92, R150): `INVALID_DATA` when the sum lies outside 0..255. -/
def Block.checkSum (sum : Int) (b : Block) : Block :=
  if sumOutOfRange sum then Block.raise .invalidData b else b

/-- DEC.NEXT on the block's own state (R92): the fault is raised AND the saturated value is emitted and kept (C2). -/
def Block.decodeNext (p : Port) (x : Byte) (b : Block) : Block :=
  if b.run then
    let sum := decodeSum b.prev x
    let o := toByte (clampToUint8 sum)
    Block.emit false o { Block.checkSum sum b with prev := o }
  else Block.protoNext p b

/-- Reset of a block (R170, R21): `run` and `fault` are cleared, `outq` is emptied and its beats are lost (R174), and `prev`
holds no value: a free one (notes/assumptions/2.md). -/
def Block.clear (p : Port) (b : Block) : Block :=
  { prev := Config.unspecifiedByte p b.draws, run := false, fault := 0, outq := [], draws := b.draws + 1 }

/-- The beats of the output queue, oldest first. -/
def Block.beats (b : Block) : List OutBeat := b.outq.map QEntry.beat

/-- `in_ready` (R60): "exactly when `outq` has room for one more beat". -/
def Block.inReady (b : Block) : Bool := decide (b.outq.length < Config.qdepth)

/-- `out_valid` (R60): `outq` holds a beat that was appended at least `LAT` edges earlier. -/
def Block.outValid (b : Block) : Bool := b.outq.any (fun e => decide (Config.lat ≤ e.age))

/-- One edge passes: every entry of `outq` is one edge older (R60). -/
def Block.tick (b : Block) : Block := { b with outq := b.outq.map (fun e => { e with age := e.age + 1 }) }

/-- The block at a port. -/
def State.block (p : Port) (s : State) : Block :=
  match p with
  | .encoder => s.enc
  | .decoder => s.dec

/-- Replace the block at a port. -/
def State.setBlock (p : Port) (b : Block) (s : State) : State :=
  match p with
  | .encoder => { s with enc := b }
  | .decoder => { s with dec := b }

/-- The words a port's source has still to offer. -/
def State.source (p : Port) (s : State) : List In9 :=
  match p with
  | .encoder => s.encSource
  | .decoder => s.decSource

/-- Replace the words a port's source has still to offer. -/
def State.setSource (p : Port) (ws : List In9) (s : State) : State :=
  match p with
  | .encoder => { s with encSource := ws }
  | .decoder => { s with decSource := ws }

/-- The beats a port's sink has taken. -/
def State.taken (p : Port) (s : State) : List OutBeat :=
  match p with
  | .encoder => s.encTaken
  | .decoder => s.decTaken

/-- Replace the beats a port's sink has taken. -/
def State.setTaken (p : Port) (bs : List OutBeat) (s : State) : State :=
  match p with
  | .encoder => { s with encTaken := bs }
  | .decoder => { s with decTaken := bs }

/-- The sink takes the head of `outq`, if there is one (R18, R163). -/
def State.takeHead (p : Port) (s : State) : State :=
  match (s.block p).outq with
  | [] => s
  | e :: es => (s.setBlock p { s.block p with outq := es }).setTaken p (s.taken p ++ [e.beat])

/-- The sink takes every beat that is pending. -/
def State.drain (p : Port) (s : State) : State :=
  (s.setBlock p { s.block p with outq := [] }).setTaken p (s.taken p ++ (s.block p).beats)

/-- Reset of the block at a port (R170): its source keeps what it offers and its sink what it has taken (R174). -/
def State.resetPort (p : Port) (s : State) : State := s.setBlock p (Block.clear p (s.block p))

/-- Go on with `f` where a step answers a next state; a stop stays a stop. -/
def andThen (o : Host.Outcome State Fault Refusal) (f : State → Host.Outcome State Fault Refusal) :
    Host.Outcome State Fault Refusal :=
  match o with
  | .next s => f s
  | .fault r => .fault r
  | .refused r => .refused r

end Sys2Proof.Machine
end

