-- ==== Sys2Proof/Machine/Decoder.lean ====
section
/-! DEFINITION. The operations of `delta_decoder` (41_decoder_ops.md). -/

namespace Sys2Proof.Machine

/-- `DEC.FIRST b` (R91). -/
def execDecFirst (b : Byte) (s : State) : Host.Outcome State Fault Refusal :=
  .next (s.setBlock .decoder (Block.startStream b s.dec))

/-- `DEC.NEXT b` (R92). -/
def execDecNext (b : Byte) (s : State) : Host.Outcome State Fault Refusal :=
  .next (s.setBlock .decoder (Block.decodeNext .decoder b s.dec))

end Sys2Proof.Machine
end

