-- ==== Sys2Proof/Machine/Encoder.lean ====
section
/-! DEFINITION. The operations of `delta_encoder` (40_encoder_ops.md). -/

namespace Sys2Proof.Machine

/-- `ENC.FIRST b` (R71). -/
def execEncFirst (b : Byte) (s : State) : Host.Outcome State Fault Refusal :=
  .next (s.setBlock .encoder (Block.startStream b s.enc))

/-- `ENC.NEXT b` (R72). -/
def execEncNext (b : Byte) (s : State) : Host.Outcome State Fault Refusal :=
  .next (s.setBlock .encoder (Block.encodeNext .encoder b s.enc))

end Sys2Proof.Machine
end

