-- ==== Sys2Proof/Machine/Dispatch.lean ====
section
/-! DEFINITION. One arm per operation: the operation an accepted input beat selects is executed, entirely (30_encoding.md R53,
20_memory.md R39). Whether a beat is accepted is decided before (Machine/Turn.lean). -/

namespace Sys2Proof.Machine

/-- Execute one operation (R71, R72, R91, R92). -/
def exec (i : Instr) (s : State) : Host.Outcome State Fault Refusal :=
  match i with
  | .encFirst b => Sys2Proof.Machine.execEncFirst b s
  | .encNext b => Sys2Proof.Machine.execEncNext b s
  | .decFirst b => Sys2Proof.Machine.execDecFirst b s
  | .decNext b => Sys2Proof.Machine.execDecNext b s

end Sys2Proof.Machine
end

