-- ==== Sys2Proof/Machine/Turn.lean ====
section
/-! DEFINITION. The moves of the agents around the blocks (60_exceptions.md R163): the source, the block, the sink and the wire at
the beat level, and one rising edge of `clk` with its pins at the level of the ports (30_encoding.md R59, R60;
70_reset_and_hazards.md R170). -/

namespace Sys2Proof.Machine

/-- Accept an input word on a port: the operation it selects executes, entirely (R39, R53). -/
def acceptWord (p : Port) (w : In9) (s : State) : Host.Outcome State Fault Refusal := exec (decode p w) s

/-- The host gives a source one more word to offer (R130). -/
def offerWord (p : Port) (w : In9) (s : State) : State := s.setSource p (s.source p ++ [w])

/-- The block's step (R163): with a beat offered and room in `outq` the beat is accepted; else nothing happens, and a beat that was
offered stays the source's to offer again (R18, R39). -/
def blockTurn (p : Port) (s : State) : Host.Outcome State Fault Refusal :=
  match s.source p with
  | [] => .next s
  | w :: ws => if (s.block p).inReady then acceptWord p w (s.setSource p ws) else .next s

/-- The wire from the encoder to the decoder carries the head of the encoder's `outq`: `first` and `data` go on, `err` does not
(R52). When the wire carries a beat is left open: here at any time, whether or not the decoder has room, and the beat waits behind what
the decoder's source offers (DESIGN CHOICE, notes/assumptions/29.md and 30.md). It is one more turn of
the one consumer of the encoder's output, and what it takes is recorded with the rest (DESIGN CHOICE, notes/assumptions/32.md). -/
def forwardTurn (s : State) : State :=
  match s.enc.outq with
  | [] => s
  | e :: _ =>
    offerWord .decoder (InBeat.word { first := e.beat.first, data := e.beat.data }) (s.takeHead .encoder)

/-- The output pins of a block (R59). -/
structure PinsOut where
  inReady : Bool
  outValid : Bool
  outErr : Bool
  outFirst : Bool
  outData : Byte
  status : Status
  deriving DecidableEq, Repr

/-- The beat on the output pins: the head of `outq` while `out_valid = 1`; else a free value (notes/assumptions/9.md). -/
def Block.shown (p : Port) (valid : Bool) (b : Block) : OutBeat :=
  match valid, b.outq with
  | true, e :: _ => e.beat
  | _, _ => OutBeat.ofWord (Config.idleOutput p b.draws)

/-- What a block drives on its output pins (R59, R60); while `rst = 1` it drives `in_ready = 0` and `out_valid = 0` (R170). -/
def outPins (p : Port) (rst : Bool) (b : Block) : PinsOut :=
  let valid := !rst && b.outValid
  let beat := Block.shown p valid b
  { inReady := !rst && b.inReady, outValid := valid, outErr := beat.err, outFirst := beat.first,
    outData := beat.data, status := b.status }

/-- The sink takes a beat at this edge (R60). -/
def edgeTakes (p : Port) (pins : PinsIn) (b : Block) : Bool := (outPins p pins.rst b).outValid && pins.outReady

/-- The block accepts a beat at this edge (R60). -/
def edgeAccepts (p : Port) (pins : PinsIn) (b : Block) : Bool := (outPins p pins.rst b).inReady && pins.inValid

/-- What an edge without reset does before a beat is accepted: the beat taken leaves, and every beat that stays is one edge
older. -/
def edgeSettles (p : Port) (pins : PinsIn) (s : State) : State :=
  let s' := if edgeTakes p pins (s.block p) then s.takeHead p else s
  s'.setBlock p (s'.block p).tick

/-- One rising edge of `clk` (R60): `rst` takes precedence over everything (R153, R170); else at most one beat is taken and at most
one is accepted, both judged by the pins as they stood at the edge. The pins of an edge are one more turn of the port's one producer, also
while its source still holds words to offer (DESIGN CHOICE, notes/assumptions/30.md). -/
def edgeTurn (p : Port) (pins : PinsIn) (s : State) : Host.Outcome State Fault Refusal :=
  if pins.rst then .next (s.resetPort p)
  else if edgeAccepts p pins (s.block p) then acceptWord p pins.word (edgeSettles p pins s)
  else .next (edgeSettles p pins s)

/-- What an observer of a block can see (R24): the beats it has taken, `status`, and whether the block is held. -/
structure Observation where
  taken : List OutBeat
  status : Status
  held : Bool
  deriving DecidableEq, Repr

/-- The observation of the block at a port (R24). -/
def observe (p : Port) (s : State) : Observation :=
  { taken := s.taken p, status := (s.block p).status, held := !(s.block p).inReady }

end Sys2Proof.Machine
end

