-- ==== Sys2Proof/Machine/Transfer.lean ====
section
/-! DEFINITION. How the host's software moves the bytes of a packet through a block (20_memory.md R44): every word is offered,
accepted and its output beat taken, in order. -/

namespace Sys2Proof.Machine

/-- The words of one channel: byte 0 with `first = 1`, every later byte with `first = 0` (R44). -/
def streamWords : List Byte → List In9
  | [] => []
  | b :: rest => InBeat.word { first := true, data := b } :: rest.map (fun x => InBeat.word { first := false, data := x })

/-- The words of a packet: the channels one after the other, in channel order (R44). -/
def packetWords (channels : List (List Byte)) : List In9 := channels.flatMap streamWords

/-- Execute operations one after the other (R32), as an uninterrupted trace does (30_encoding.md R61). -/
def execAll : List Instr → State → Host.Outcome State Fault Refusal
  | [], s => .next s
  | i :: rest, s => andThen (exec i s) (fun t => execAll rest t)

/-- The operations of one channel stream on a port: `ENC.STREAM` and `DEC.STREAM` (R62). -/
def streamOps (p : Port) : List Byte → List Instr
  | [] => []
  | b :: rest =>
    decodeBeat p { first := true, data := b } :: rest.map (fun x => decodeBeat p { first := false, data := x })

/-- Send words through the block at a port, each beat taken before the next word is offered. -/
def transfer (p : Port) : List In9 → State → Host.Outcome State Fault Refusal
  | [], s => .next s
  | w :: ws, s => andThen (acceptWord p w s) (fun t => transfer p ws (t.takeHead p))

/-- The beats a sink has taken since an earlier state. -/
def newBeats (p : Port) (before after : State) : List OutBeat := (after.taken p).drop (before.taken p).length

/-- The run is not to be used (R129): some beat had `err = 1`, or `status[2:1]` is not zero. -/
def runFailed (p : Port) (beats : List OutBeat) (after : State) : Bool :=
  beats.any OutBeat.err || errOf (after.block p).fault

/-- Cut a packet's bytes into its `n` channels of `t` bytes each (R35). -/
def splitChannels (t : Nat) : Nat → List Byte → List (List Byte)
  | 0, _ => []
  | n + 1, bs => bs.take t :: splitChannels t n (bs.drop t)

/-- Give the caller of a host procedure its typed result (R122). -/
def reply (r : Reply) (s : State) : State := { s with host := { s.host with replies := s.host.replies ++ [r] } }

/-- A host procedure that fails changes nothing but to answer its caller (R122). -/
def fail (k : ErrKind) (s : State) : Host.Outcome State Fault Refusal := .next (reply (.failed k) s)

end Sys2Proof.Machine
end

