-- ==== Sys2Proof/Machine/HostDecoder.lean ====
section
/-! DEFINITION. The Container's writer and reader as calls, and the host Decoder (42_host_contract.md R117, R119, R120, R129). -/

namespace Sys2Proof.Machine

/-- An Encoder has been created and has finalized (R117). -/
def hasFinalized (s : State) : Bool :=
  match s.host.encoder with
  | none => false
  | some e => decide (e.life ≠ .opened)

/-- `write(packet)` (R117): the packet's bytes become the file, unchanged. -/
def hostWrite (s : State) : Host.Outcome State Fault Refusal :=
  if hasFinalized s then
    match s.host.packet with
    | none => .refused .noPacket
    | some image => .next (reply .ok { s with host := { s.host with file := image } })
  else fail .invalidState s

/-- A file with these bytes comes to the reader from outside (R36). -/
def hostLoad (bytes : List Byte) (s : State) : Host.Outcome State Fault Refusal :=
  .next { s with host := { s.host with file := Memory.ofBytes bytes } }

/-- `read()` (R119). -/
def hostRead (s : State) : Host.Outcome State Fault Refusal :=
  match readFile s.host.file with
  | none => fail .invalidData s
  | some q => .next (reply (.header q) { s with host := { s.host with parsed := some q } })

/-- One byte of the file (R9, R36). -/
def hostFileByte (off : Nat) (s : State) : Host.Outcome State Fault Refusal :=
  match s.host.file.read off with
  | none => .fault (.offsetOutsideFile off)
  | some b => .next (reply (.byte b) s)

/-- The payload of a packet as its EncodedChannels (R35, R120). -/
def Parsed.channels (q : Parsed) : List (List Byte) :=
  splitChannels q.header.totalSamples.toNat q.header.channelCount.toNat q.payload

/-- `decode(packet)` (R120): the channels go through `delta_decoder`; all or nothing (R129): on any beat with `err = 1` every sample
is discarded, the caller gets `InvalidData` and the block is reset. -/
def hostDecode (s : State) : Host.Outcome State Fault Refusal :=
  match s.host.parsed with
  | none => .refused .nothingRead
  | some q =>
    let before := s.drain .decoder
    andThen (transfer .decoder (packetWords q.channels) before) (fun after =>
      let beats := newBeats .decoder before after
      if runFailed .decoder beats after then fail .invalidData (after.resetPort .decoder)
      else
        .next (reply (.samples {
          sampleRate := q.header.sampleRate
          channels := splitChannels q.header.totalSamples.toNat q.header.channelCount.toNat
            (beats.map OutBeat.data) }) after))

end Sys2Proof.Machine
end

