-- ==== Sys2Proof/WellFormed.lean ====
section
/-! DEFINITION. What is well formed: the checks on syntax that the rules state. An `Instr` needs none (30_encoding.md R57: no
word is reserved or illegal, and its operand is a byte by type); the trace notation, the pseudo-operations, the host's frames and
the table's numbers do. -/

namespace Sys2Proof

/-- Every operation of the opcode map is well formed: "all 512 words of IN9 are defined on both ports" (R57). -/
def Instr.wf : Instr → Bool
  | .encFirst _ => true
  | .encNext _ => true
  | .decFirst _ => true
  | .decNext _ => true

/-- A number is an `IN9` word when it is in 0x000..0x1FF (R50). -/
def in9Wf (n : Nat) : Bool := decide (n < 512)

/-- An operand of a trace line: a byte is in 0..255; a signed delta stands only after `DEC.NEXT` and is in -128..127 (R61). -/
def TraceLine.wf (l : TraceLine) : Bool :=
  match l.operand with
  | .byte n => decide (n < 256)
  | .delta e => decide (l.mnemonic = .decNext ∧ -128 ≤ e ∧ e ≤ 127)

/-- `ENC.STREAM []` and `DEC.STREAM []` are not defined, nor a packet with such a channel (R62). -/
def PseudoOp.wf : PseudoOp → Bool
  | .reset _ => true
  | .encStream s => !s.isEmpty
  | .decStream b => !b.isEmpty
  | .encPacket cs => cs.all (fun s => !s.isEmpty)
  | .decPacket cs => cs.all (fun b => !b.isEmpty)

/-- Every channel array of the frame has the length the frame declares (R112). -/
def Frame.equalLengths (f : Frame) : Bool := f.channels.all (fun c => decide (c.length = f.sampleCount))

/-- "a positive sample count and exactly `channelCount` channel arrays, each of length `frame.sampleCount`" (R112). -/
def Frame.wf (channelCount : BitVec 16) (f : Frame) : Bool :=
  decide (0 < f.sampleCount) && decide (f.channels.length = channelCount.toNat) && f.equalLengths

end Sys2Proof
end

