-- ==== Sys2Proof/Machine/HostEncoder.lean ====
section
/-! DEFINITION. The host Encoder: frame accumulation, its lifecycle and the building of the packet (42_host_contract.md R111 to
R118, R123). -/

namespace Sys2Proof.Machine

/-- A new Encoder: "created empty" (R111). -/
def HostEncoder.create (rate : BitVec 32) (n : BitVec 16) : HostEncoder :=
  { channelCount := n, sampleRate := rate, queues := List.replicate n.toNat [], totalSamples := 0, life := .opened }

/-- Create the host Encoder (R111), by a call of the model's own (DESIGN CHOICE, notes/assumptions/34.md). An Encoder that was there is
discarded with its packet (notes/assumptions/21.md). -/
def hostCreate (rate : BitVec 32) (n : BitVec 16) (s : State) : Host.Outcome State Fault Refusal :=
  if n = 0 then .refused .zeroChannels
  else .next (reply .ok { s with host := { s.host with encoder := some (HostEncoder.create rate n), packet := none } })

/-- Append channel array `c` of the frame to queue `c`, for every `c`, and count its samples (R112). -/
def HostEncoder.append (f : Frame) (e : HostEncoder) : HostEncoder :=
  { e with
    queues := List.zipWith (fun q c => q ++ [c]) e.queues f.channels
    totalSamples := e.totalSamples + f.sampleCount }

/-- Replace the host Encoder. -/
def State.setEncoder (e : HostEncoder) (s : State) : State := { s with host := { s.host with encoder := some e } }

/-- `push(frame)` (R112): the state is tested before the frame. -/
def hostPush (frame : Option Frame) (s : State) : Host.Outcome State Fault Refusal :=
  match s.host.encoder with
  | none => .refused .noEncoder
  | some e =>
    if e.life ≠ .opened then fail .streamClosed s
    else
      match frame with
      | none => .refused .nullFrame
      | some f =>
        if f.channels.length ≠ e.channelCount.toNat ∨ f.sampleCount = 0 then fail .invalidArgument s
        else if f.equalLengths then .next (reply .ok (s.setEncoder (e.append f)))
        else .refused .unequalFrame

/-- `finish()` (R113). -/
def hostFinish (s : State) : Host.Outcome State Fault Refusal :=
  match s.host.encoder with
  | none => .refused .noEncoder
  | some e =>
    if e.life = .opened then .next (reply .ok (s.setEncoder { e with life := .finalized }))
    else fail .streamClosed s

/-- `s_c` for every channel: the concatenation, in arrival order, of the slices of its queue (R118). -/
def HostEncoder.streams (e : HostEncoder) : List (List Byte) := e.queues.map List.flatten

/-- A total of samples as the header's 32-bit field holds it: the total itself up to `T_MAX` (R6); beyond it the spec states no value,
and the field is a free one (DESIGN CHOICE, notes/assumptions/14.md). -/
def totalField (t : Nat) : BitVec 32 := if t < Config.totalLimit then BitVec.ofNat 32 t else Config.unstatedTotal t

/-- The header of the packet: the Encoder's rate, channel count and total (R118). -/
def HostEncoder.header (e : HostEncoder) : Header :=
  { sampleRate := e.sampleRate, channelCount := e.channelCount, totalSamples := totalField e.totalSamples }

/-- The file size `14 + N*T` (R33). -/
def packetSize (n t : Nat) : Nat := Config.hdrBytes + n * t

/-- The packet image of `t` samples per channel: the header at `File[0]`, the `data` of beat `k` at `File[14 + k]` (R118). -/
def packetImage (t : Nat) (h : Header) (payload : List Byte) : Option Memory :=
  ((Memory.blank (packetSize h.channelCount.toNat t)).store 0 (writeHeader h)).bind
    (fun m => m.store Config.hdrBytes payload)

/-- The end of a successful `buildPacket()`: the packet goes to the caller, the Encoder is `Consumed` and its frame queue is
released (R114, R118, R123). -/
def deliverPacket (e : HostEncoder) (image : Memory) (s : State) : State :=
  let e' := { e with queues := List.replicate e.channelCount.toNat [], life := .consumed }
  reply (.packet image) { s with host := { s.host with encoder := some e', packet := some image } }

/-- `buildPacket()` once its checks have passed (R118): the channels go through `delta_encoder`; on any beat with `err = 1` no
packet is produced, the caller gets `InvalidData` and the block is reset (R129). -/
def producePacket (e : HostEncoder) (s : State) : Host.Outcome State Fault Refusal :=
  let before := s.drain .encoder
  andThen (transfer .encoder (packetWords e.streams) before) (fun after =>
    let beats := newBeats .encoder before after
    if runFailed .encoder beats after then fail .invalidData (after.resetPort .encoder)
    else
      match packetImage e.totalSamples e.header (beats.map OutBeat.data) with
      | some image => .next (deliverPacket e image after)
      | none => .fault (.offsetOutsideFile (packetSize e.channelCount.toNat e.totalSamples)))

/-- `buildPacket()` (R114): the checks in their order. -/
def hostBuildPacket (s : State) : Host.Outcome State Fault Refusal :=
  match s.host.encoder with
  | none => .refused .noEncoder
  | some e =>
    if e.life = .consumed then fail .alreadyProduced s
    else if e.totalSamples = 0 then fail .invalidArgument s
    else if e.life = .opened then fail .invalidState s
    else producePacket e s

end Sys2Proof.Machine
end

