-- ==== Sys2Proof/Machine/Agents.lean ====
section
/-! DEFINITION. One move of one agent (60_exceptions.md R163; 42_host_contract.md R130). -/

namespace Sys2Proof.Machine

/-- A call of the host's software (42_host_contract.md). -/
def hostCall (c : HostCall) (s : State) : Host.Outcome State Fault Refusal :=
  match c with
  | .create rate n => hostCreate rate n s
  | .push f => hostPush f s
  | .finish => hostFinish s
  | .buildPacket => hostBuildPacket s
  | .write => hostWrite s
  | .load bytes => hostLoad bytes s
  | .read => hostRead s
  | .decode => hostDecode s
  | .fileByte off => hostFileByte off s

/-- One move of one agent. Sinks, the wire, edges and host procedures may all take from one `outq`, in the order of their turns: that
this is the port's "one consumer" (R40 c) is the model's reading, DESIGN CHOICE (notes/assumptions/32.md). -/
def takeTurn (t : Turn) (s : State) : Host.Outcome State Fault Refusal :=
  match t with
  | .offer p w => .next (offerWord p w s)
  | .block p => blockTurn p s
  | .sink p => .next (s.takeHead p)
  | .reset p => .next (s.resetPort p)
  | .edge p pins => edgeTurn p pins s
  | .forward => .next (forwardTurn s)
  | .contend p _ _ => .refused (.twoDrivers p)
  | .host c => hostCall c s

/-- The next move, if one is to come; a machine to which nobody does anything keeps all its state (R165). -/
def nextTurn (s : State) : Host.Outcome State Fault Refusal :=
  match s.turns with
  | [] => .next s
  | t :: ts => takeTurn t { s with turns := ts }

/-- Make room in a full output queue: the sink takes what is pending. -/
def roomFor (p : Port) (s : State) : State := if (s.block p).inReady then s else s.drain p

/-- Put a word where the block at a port accepts its next one, and let that block move next (notes/assumptions/8.md). -/
def placeWord (p : Port) (w : In9) (s : State) : State :=
  let s' := roomFor p s
  { s'.setSource p (w :: s'.source p) with turns := .block p :: s'.turns }

/-- Place the instruction of `nbits` bits whose bits are `w`, numbered as the opcode table numbers them (see
`decodeTableWord`). -/
def placeTableWord (nbits w : Nat) (s : State) : State :=
  let v := w % 2 ^ nbits
  placeWord (portOfTag (decide (512 ≤ v % 1024))) (BitVec.ofNat 9 v) s

end Sys2Proof.Machine
end

