-- ==== Sys2Proof/Machine/Step.lean ====
section
/-! DEFINITION. One step of the machine, and placing an instruction where the next step runs it. -/

namespace Sys2Proof.Machine

/-- One step: the move of the agent whose turn it is (R163). -/
def step (s : State) : Host.Outcome State Fault Refusal := nextTurn s

/-- `s` with one input word placed as the next that its block accepts, and that block to move next: the very next step executes
the operation it selects (notes/assumptions/8.md). -/
def State.withFetchWord (s : State) (nbits w : Nat) : State := placeTableWord nbits w s

end Sys2Proof.Machine
end

