-- ==== Sys2Proof/Machine/Stream.lean ====
section
/-! DEFINITION. The whole-stream functions of the rules: `enc` and `rec` (40_encoder_ops.md R73), `dec` and `bad`
(41_decoder_ops.md R93), over the list of the bytes of one channel stream. Each is the recurrence of the rule, started by byte 0. -/

namespace Sys2Proof.Machine

/-- `rec(s)[i]` from `rec(s)[i-1]` and `s[i]`: `rec(s)[i-1] + clampDelta(s[i] - rec(s)[i-1])` (R73). -/
def nextRec (prev s : Byte) : Byte := toByte (unsigned prev + clampDelta (rawDelta prev s))

/-- `rec(s)[i]` for the positions after a predictor `prev` (R73). -/
def recFrom : Byte → List Byte → List Byte
  | _, [] => []
  | prev, s :: rest => nextRec prev s :: recFrom (nextRec prev s) rest

/-- `enc(s)[i]` for the positions after a predictor `prev` (R73). -/
def encFrom : Byte → List Byte → List Byte
  | _, [] => []
  | prev, s :: rest => tc8 (clampDelta (rawDelta prev s)) :: encFrom (nextRec prev s) rest

/-- `rec(s)`: the reconstructed samples of a channel stream (R73). -/
def recStream : List Byte → List Byte
  | [] => []
  | s :: rest => s :: recFrom s rest

/-- `enc(s)`: the EncodedChannel of a channel stream (R73). -/
def encStream : List Byte → List Byte
  | [] => []
  | s :: rest => s :: encFrom s rest

/-- `dec(b)[i]` from `dec(b)[i-1]` and `b[i]` (R93). -/
def nextDec (prev b : Byte) : Byte := toByte (clampToUint8 (decodeSum prev b))

/-- `dec(b)[i]` for the positions after a predictor `prev` (R93). -/
def decFrom : Byte → List Byte → List Byte
  | _, [] => []
  | prev, b :: rest => nextDec prev b :: decFrom (nextDec prev b) rest

/-- Some sum after a predictor `prev` lies outside 0..255 (R93). -/
def badFrom : Byte → List Byte → Bool
  | _, [] => false
  | prev, b :: rest => sumOutOfRange (decodeSum prev b) || badFrom (nextDec prev b) rest

/-- `dec(b)`: what the decoder emits for a byte sequence (R93). -/
def decStream : List Byte → List Byte
  | [] => []
  | b :: rest => b :: decFrom b rest

/-- `bad(b)`: the stream is not conformant (R93). -/
def badStream : List Byte → Bool
  | [] => false
  | b :: rest => badFrom b rest

/-- All adjacent differences of a stream lie in -128..127 (R76). -/
def smoothFrom : Byte → List Byte → Bool
  | _, [] => true
  | prev, s :: rest => decide (-128 ≤ rawDelta prev s ∧ rawDelta prev s ≤ 127) && smoothFrom s rest

/-- All adjacent differences of a channel stream lie in -128..127 (R76, R98). -/
def smooth : List Byte → Bool
  | [] => true
  | s :: rest => smoothFrom s rest

end Sys2Proof.Machine
end

