-- ==== Sys2Proof/Machine/Trace.lean ====
section
/-! DEFINITION. The trace notation (30_encoding.md R61, R62): reading a line of text, its operation, the expansions of the
pseudo-operations, and the written form of an output beat. Text is a list of characters. Notation only: no rule of a block depends
on it (92_eei_decisions.md D19). -/

namespace Sys2Proof.Machine

/-- The text of a line with its comment, from `;` on, left out (R61). -/
def withoutComment : List Char → List Char
  | [] => []
  | c :: rest => if c = ';' then [] else c :: withoutComment rest

/-- The words of a line, parted by spaces and tabs; `word` is the word being read, last character first. -/
def lineWords (word : List Char) : List Char → List (List Char)
  | [] => if word.isEmpty then [] else [word.reverse]
  | c :: rest =>
    if c = ' ' ∨ c = '\t' then
      (if word.isEmpty then lineWords [] rest else word.reverse :: lineWords [] rest)
    else lineWords (c :: word) rest

/-- The value of a digit in decimal or hexadecimal. -/
def digitValue (base : Nat) (c : Char) : Option Nat :=
  let v :=
    if 48 ≤ c.toNat ∧ c.toNat ≤ 57 then c.toNat - 48
    else if 65 ≤ c.toNat ∧ c.toNat ≤ 70 then c.toNat - 55
    else if 97 ≤ c.toNat ∧ c.toNat ≤ 102 then c.toNat - 87
    else base
  if v < base then some v else none

/-- The number that digits spell after `acc`. -/
def digitsFrom (base : Nat) (acc : Nat) : List Char → Option Nat
  | [] => some acc
  | c :: rest =>
    match digitValue base c with
    | none => none
    | some v => digitsFrom base (acc * base + v) rest

/-- A number in decimal, or in hexadecimal after `0x` (R9, R61). -/
def readNumber : List Char → Option Nat
  | [] => none
  | '0' :: 'x' :: c :: rest => digitsFrom 16 0 (c :: rest)
  | c :: rest => digitsFrom 10 0 (c :: rest)

/-- The operand of a line: a signed delta if it begins with a sign, else a byte (R61). -/
def readOperand : List Char → Option TraceOperand
  | '+' :: rest => (readNumber rest).map (fun n => .delta n)
  | '-' :: rest => (readNumber rest).map (fun n => .delta (-(n : Int)))
  | cs => (readNumber cs).map .byte

/-- The mnemonic a word spells (R61). -/
def readMnemonic (w : List Char) : Option Mnemonic :=
  if w = ['E', 'N', 'C', '.', 'F', 'I', 'R', 'S', 'T'] then some .encFirst
  else if w = ['E', 'N', 'C', '.', 'N', 'E', 'X', 'T'] then some .encNext
  else if w = ['D', 'E', 'C', '.', 'F', 'I', 'R', 'S', 'T'] then some .decFirst
  else if w = ['D', 'E', 'C', '.', 'N', 'E', 'X', 'T'] then some .decNext
  else none

/-- One line of a trace: `<mnemonic> <byte>`; nothing for any other text, and for an operand that is not well formed (R61). -/
def readLine (text : List Char) : Option TraceLine :=
  match lineWords [] (withoutComment text) with
  | [m, o] =>
    match readMnemonic m, readOperand o with
    | some mnemonic, some operand =>
      let l : TraceLine := { mnemonic := mnemonic, operand := operand }
      if l.wf then some l else none
    | _, _ => none
  | _ => none

/-- The byte an operand stands for: a signed delta stands for `tc8` of it (R61). -/
def traceByte (o : TraceOperand) : Byte :=
  match o with
  | .byte n => BitVec.ofNat 8 n
  | .delta e => tc8 e

/-- The operation of a mnemonic on a byte. -/
def mnemonicOp : Mnemonic → Byte → Instr
  | .encFirst => .encFirst
  | .encNext => .encNext
  | .decFirst => .decFirst
  | .decNext => .decNext

/-- The operation of a well-formed line (R61). -/
def lineOp (l : TraceLine) : Option Instr :=
  if l.wf then some (mnemonicOp l.mnemonic (traceByte l.operand)) else none

/-- One step of an expanded trace: an operation, or one rising edge with `rst = 1`, which is no input beat (R62). -/
inductive TraceStep where
  | op (i : Instr)
  | reset (p : Port)
  deriving DecidableEq, Repr

/-- The expansion of a pseudo-operation; a stream without a byte is not defined (R62). -/
def expand (o : PseudoOp) : Option (List TraceStep) :=
  if o.wf then
    match o with
    | .reset p => some [.reset p]
    | .encStream s => some ((streamOps .encoder s).map .op)
    | .decStream b => some ((streamOps .decoder b).map .op)
    | .encPacket cs => some ((cs.flatMap (streamOps .encoder)).map .op)
    | .decPacket cs => some ((cs.flatMap (streamOps .decoder)).map .op)
  else none

/-- The moves of the agents that carry one step of a trace out: the word is offered, accepted, and its beat taken.
A trace fixes the input beats alone, so this schedule is the model's, DESIGN CHOICE (notes/assumptions/33.md). -/
def traceTurns : TraceStep → List Turn
  | .op i => [.offer (encode i).1 (encode i).2, .block (encode i).1, .sink (encode i).1]
  | .reset p => [.reset p]

/-- The 10-bit encoding of an output beat as a number, `512*err + 256*first + data` (R61). -/
def outNumber (b : OutBeat) : Nat := 512 * b.err.toNat + 256 * b.first.toNat + b.data.toNat

/-- The written form of an output beat, `-> (first, err, data)`, its data in decimal (R61). -/
def outText (b : OutBeat) : List Char :=
  ['-', '>', ' ', '('] ++ Nat.toDigits 10 b.first.toNat ++ [',', ' '] ++ Nat.toDigits 10 b.err.toNat ++ [',', ' ']
    ++ Nat.toDigits 10 b.data.toNat ++ [')']

end Sys2Proof.Machine
end

