-- ==== Sys2Proof/Safety.lean ====
section
/-! DEFINITION. What counts as a good run, and the invariants of the machine: what every step keeps (10_state.md R18, R23, R24;
30_encoding.md R51; 60_exceptions.md R151; 70_reset_and_hazards.md R181), in the terms the statements use. -/

namespace Sys2Proof.Machine

/-- A move that may still bring the block at a port an input word: the host offers one, or has one on the pins of an edge, the wire
may carry one to the decoder, or a procedure sends a packet (R181: the words of a run are "chosen by the host";
notes/assumptions/31.md). -/
def Turn.mayOffer (p : Port) : Turn → Bool
  | .offer q _ => decide (q = p)
  | .block _ => false
  | .sink _ => false
  | .reset _ => false
  | .edge q pins => decide (q = p) && pins.inValid
  | .forward => decide (p = .decoder)
  | .contend q _ _ => decide (q = p)
  | .host .buildPacket => decide (p = .encoder)
  | .host .decode => decide (p = .decoder)
  | .host (.create _ _) => false
  | .host (.push _) => false
  | .host .finish => false
  | .host .write => false
  | .host (.load _) => false
  | .host .read => false
  | .host (.fileByte _) => false

/-- The run of the block at a port has ended: no word is still to come, the source has offered and the block accepted every word, and
the sink has taken every output beat (R181). -/
def State.ended (p : Port) (s : State) : Bool :=
  s.turns.all (fun t => !Turn.mayOffer p t) && (s.source p).isEmpty && (s.block p).outq.isEmpty

/-- The end state of a block's run is good when `fault = 0` (R24, R181). -/
def State.goodEnd (p : Port) (s : State) : Bool := s.ended p && !errOf (s.block p).fault

/-- All beats a block has produced since they were last lost to a reset: those its sink has taken, then those in `outq`. -/
def State.produced (p : Port) (s : State) : List OutBeat := s.taken p ++ (s.block p).beats

/-- The output queue holds at most `QDEPTH` beats (R18). -/
def Block.depthOk (b : Block) : Prop := b.outq.length ≤ Config.qdepth

/-- Once `err` is 1 on some beat it is 1 on every later one (R51). -/
def errSticky : List OutBeat → Bool
  | [] => true
  | b :: rest => (!b.err || rest.all OutBeat.err) && errSticky rest

/-- `err` in the queue is sticky, and stands on a beat only of a faulted block (R51, R154). -/
def Block.errOk (b : Block) : Prop :=
  errSticky b.beats = true ∧ ((∃ x ∈ b.beats, x.err = true) → errOf b.fault = true)

/-- While no stream has been started since reset, every beat in the queue is a flagged answer to a NEXT beat, and there is one only
if `PROTO` is set (R13, R151). -/
def Block.startOk (b : Block) : Prop :=
  b.run = false → ∀ x ∈ b.beats, x.first = false ∧ x.err = true ∧ b.fault.getLsbD 0 = true

/-- The invariant of one block. -/
structure Block.Inv (b : Block) : Prop where
  depth : b.depthOk
  err : b.errOk
  start : b.startOk

/-- The invariant of the hardware: both blocks', and the encoder's bit 1 of `fault`, hardwired 0 (R14, R23). -/
structure State.BlockInv (s : State) : Prop where
  enc : s.enc.Inv
  dec : s.dec.Inv
  encBit : s.enc.fault.getLsbD 1 = false

/-- The invariant of a host Encoder (R111, R112): at least one channel, one queue per channel, and until the queue is released every
channel holds as many samples as have been counted. -/
structure HostEncoder.Inv (e : HostEncoder) : Prop where
  channels : e.channelCount ≠ 0
  queues : e.queues.length = e.channelCount.toNat
  filled : e.life ≠ .consumed → ∀ q ∈ e.queues, q.flatten.length = e.totalSamples

/-- What the reader handed on is what its checks admit (R119). -/
structure Parsed.Inv (q : Parsed) : Prop where
  channels : q.header.channelCount ≠ 0
  total : q.header.totalSamples ≠ 0
  size : q.payload.length = q.header.channelCount.toNat * q.header.totalSamples.toNat

/-- The memory a reply holds, if any, is in canonical form. -/
def Reply.memoryOk : Reply → Bool
  | .ok => true
  | .failed _ => true
  | .packet image => image.wf
  | .header _ => true
  | .samples _ => true
  | .byte _ => true

/-- The invariant of the host's software. -/
structure HostState.Inv (h : HostState) : Prop where
  encoder : ∀ e, h.encoder = some e → e.Inv
  packet : ∀ m, h.packet = some m → m.wf = true
  file : h.file.wf = true
  parsed : ∀ q, h.parsed = some q → q.Inv
  replies : ∀ r ∈ h.replies, r.memoryOk = true

/-- A move that is made at the beat level by a block or a sink alone (R163). -/
def Turn.isBeatMove : Turn → Bool
  | .block _ => true
  | .sink _ => true
  | .offer _ _ => false
  | .reset _ => false
  | .edge _ _ => false
  | .forward => false
  | .contend _ _ _ => false
  | .host _ => false

end Sys2Proof.Machine
end

