-- ==== Sys2Proof/Certificates/Slice0/Obligations.lean ====
section
/-! DEFINITION. The statements for the provers, from the numbered rules of spec/. Each is a closed proposition about the model;
none is proved here. `BitVec.toNat` of a byte is its unsigned value (30_encoding.md R56). -/

open Sys2Proof Sys2Proof.Machine

/-! ### Encoding (30_encoding.md) -/

/-- Decoding undoes encoding for every operation and every operand byte: on a port (R50, R53), and in the tagged beat, the model's
own two-byte form that names the port too (DESIGN CHOICE, notes/assumptions/8.md), whatever bytes follow. -/
def Obligations.DecodeUndoesEncodeForEveryOperation : Prop :=
  ∀ (i : Instr) (rest : List Byte),
    decode (encode i).1 (encode i).2 = i ∧ decodeBytes (encodeBytes i ++ rest) = .instr i rest

/-- R53: the operation is decided by the port and by bit 8 alone, by match and mask; the word ranges; and every 9-bit word on either
port is exactly one operation. -/
def Obligations.EveryWordSelectsExactlyOneOperation : Prop :=
  ∀ (p : Port) (w : In9),
    decode p w =
      (match p with
       | .encoder => if w &&& 0x100#9 = 0x100#9 then .encFirst (w.setWidth 8) else .encNext (w.setWidth 8)
       | .decoder => if w &&& 0x100#9 = 0x100#9 then .decFirst (w.setWidth 8) else .decNext (w.setWidth 8)) ∧
    (w &&& 0x100#9 = 0x100#9 ↔ 0x100 ≤ w.toNat) ∧ (w &&& 0x100#9 = 0#9 ↔ w.toNat ≤ 0xFF) ∧
    encode (decode p w) = (p, w)

/-- A sanity check on words written out in 95_test_vectors.md (V1, V2, DN2): their operations. -/
def Obligations.WrittenOutWordsDecode : Prop :=
  decode .encoder 0x1C8#9 = .encFirst 200#8 ∧ decode .encoder 0x08C#9 = .encNext 140#8 ∧
    decode .decoder 0x10A#9 = .decFirst 10#8 ∧ decode .decoder 0x0FF#9 = .decNext 0xFF#8

/-! ### The pure functions (00_scope.md R8, 30_encoding.md R55) -/

/-- R8: the five functions, and that `tc8` and `s8` are inverse bijections. -/
def Obligations.PureFunctionsMatchTheirDefinitions : Prop :=
  (∀ lo hi v : Int, lo ≤ hi →
    (v < lo → clamp lo hi v = lo) ∧ (hi < v → clamp lo hi v = hi) ∧ (lo ≤ v → v ≤ hi → clamp lo hi v = v)) ∧
  (∀ v : Int, clampDelta v = clamp (-128) 127 v ∧ clampToUint8 v = clamp 0 255 v) ∧
  (∀ e : Int, (0 ≤ e → e ≤ 127 → ((tc8 e).toNat : Int) = e) ∧
    (-128 ≤ e → e ≤ -1 → ((tc8 e).toNat : Int) = e + 256)) ∧
  (∀ b : Byte, (b.toNat ≤ 127 → s8 b = b.toNat) ∧ (128 ≤ b.toNat → s8 b = (b.toNat : Int) - 256)) ∧
  (∀ e : Int, -128 ≤ e → e ≤ 127 → s8 (tc8 e) = e) ∧
  (∀ b : Byte, tc8 (s8 b) = b ∧ -128 ≤ s8 b ∧ s8 b ≤ 127)

/-- R55: `s8` is the sign extension of the byte and `tc8` is two's complement, so the key values of its table hold. -/
def Obligations.DeltaBytesAreTwosComplement : Prop :=
  (∀ b : Byte, s8 b = b.toInt) ∧ (∀ e : Int, -128 ≤ e → e ≤ 127 → tc8 e = BitVec.ofInt 8 e)

/-! ### The operations (40_encoder_ops.md, 41_decoder_ops.md) -/

/-- R71: ENC.FIRST completes in every state and on every byte. -/
def Obligations.EncFirstStartsAStream : Prop :=
  ∀ (b : Byte) (s : State),
    decode .encoder (BitVec.ofNat 9 (0x100 + b.toNat)) = .encFirst b ∧
    exec (.encFirst b) s = .next { s with
      enc := { s.enc with
        prev := b
        run := true
        outq := s.enc.outq ++ [{ beat := { first := true, err := s.enc.fault != 0, data := b }, age := 0 }] } }

/-- R72: ENC.NEXT completes in every state and on every byte: with `run = 1` by the three branches, with `run = 0` by taking
`PROTO`. (The byte `x` is unspecified by the rule; `draws` is a field of the model's own, notes/assumptions/3.md, and nothing is
said of it.) -/
def Obligations.EncNextEmitsTheSaturatedDelta : Prop :=
  ∀ (b : Byte) (s : State),
    decode .encoder (BitVec.ofNat 9 b.toNat) = .encNext b ∧
    (s.enc.run = false → ∃ (x : Byte) (k : Nat),
      exec (.encNext b) s = .next { s with
        enc := { s.enc with
          fault := s.enc.fault ||| 0b01#2
          outq := s.enc.outq ++ [{ beat := { first := false, err := true, data := x }, age := 0 }]
          draws := k } }) ∧
    (s.enc.run = true → ∃ (d e r : Int) (prev' : Byte),
      d = (b.toNat : Int) - s.enc.prev.toNat ∧
      (d > 127 → e = 127 ∧ r = (s.enc.prev.toNat : Int) + 127) ∧
      (d < -128 → e = -128 ∧ r = (s.enc.prev.toNat : Int) - 128) ∧
      (-128 ≤ d → d ≤ 127 → e = d ∧ r = b.toNat) ∧
      e = clampDelta d ∧ r = (s.enc.prev.toNat : Int) + e ∧ (prev'.toNat : Int) = r ∧
      exec (.encNext b) s = .next { s with
        enc := { s.enc with
          prev := prev'
          outq := s.enc.outq ++
            [{ beat := { first := false, err := s.enc.fault != 0, data := tc8 e }, age := 0 }] } })

/-- R91: DEC.FIRST completes in every state and on every byte. -/
def Obligations.DecFirstStartsAStream : Prop :=
  ∀ (b : Byte) (s : State),
    decode .decoder (BitVec.ofNat 9 (0x100 + b.toNat)) = .decFirst b ∧
    exec (.decFirst b) s = .next { s with
      dec := { s.dec with
        prev := b
        run := true
        outq := s.dec.outq ++ [{ beat := { first := true, err := s.dec.fault != 0, data := b }, age := 0 }] } }

/-- R92: DEC.NEXT completes in every state and on every byte: with `run = 1` it emits and keeps the saturated sum, and raises
`INVALID_DATA` when the sum is out of range; with `run = 0` it takes `PROTO` (`x` and `draws` as in the encoder's). -/
def Obligations.DecNextEmitsTheSaturatedSum : Prop :=
  ∀ (b : Byte) (s : State),
    decode .decoder (BitVec.ofNat 9 b.toNat) = .decNext b ∧
    (s.dec.run = false → ∃ (x : Byte) (k : Nat),
      exec (.decNext b) s = .next { s with
        dec := { s.dec with
          fault := s.dec.fault ||| 0b01#2
          outq := s.dec.outq ++ [{ beat := { first := false, err := true, data := x }, age := 0 }]
          draws := k } }) ∧
    (s.dec.run = true → ∃ (sum : Int) (o : Byte) (f : FaultBits),
      sum = (s.dec.prev.toNat : Int) + s8 b ∧
      (sum < 0 → o.toNat = 0 ∧ f = s.dec.fault ||| 0b10#2) ∧
      (sum > 255 → o.toNat = 255 ∧ f = s.dec.fault ||| 0b10#2) ∧
      (0 ≤ sum → sum ≤ 255 → (o.toNat : Int) = sum ∧ f = s.dec.fault) ∧
      exec (.decNext b) s = .next { s with
        dec := { s.dec with
          prev := o
          fault := f
          outq := s.dec.outq ++ [{ beat := { first := false, err := f != 0, data := o }, age := 0 }] } })

/-- R70 and R90, for all four operations: one operation reads and writes only its own block, and appends exactly one output beat,
with the input's `first` bit and with `err` as `fault` stands after the operation's own update. -/
def Obligations.EveryOperationAppendsOneBeat : Prop :=
  ∀ (i : Instr) (s : State), ∃ (t : State) (x : Byte),
    exec i s = .next t ∧ t = s.setBlock i.port (t.block i.port) ∧
    (t.block i.port).outq = (s.block i.port).outq ++
      [{ beat := { first := i.isFirst, err := (t.block i.port).fault != 0, data := x }, age := 0 }] ∧
    ∀ s' : State, s'.block i.port = s.block i.port →
      exec i s' = .next (s'.setBlock i.port (t.block i.port))

/-- The frame of all four operations: the other block, the ports' streams, the host's software and its file (every byte of memory),
and the moves to come are unchanged; of its own block a FIRST leaves `fault`, a NEXT leaves `run`, a NEXT of a running block leaves
`PROTO`, ENC.NEXT leaves `INVALID_DATA`, a NEXT that takes `PROTO` leaves `prev`; and no beat already in the queue is touched. -/
def Obligations.OperationFrame : Prop :=
  ∀ (i : Instr) (s t : State), exec i s = .next t →
    (∀ q : Port, q ≠ i.port → t.block q = s.block q) ∧
    (∀ q : Port, t.source q = s.source q ∧ t.taken q = s.taken q) ∧
    t.host = s.host ∧ t.turns = s.turns ∧
    (∀ off : Nat, t.host.file.read off = s.host.file.read off) ∧
    (i.isFirst = true → (t.block i.port).fault = (s.block i.port).fault) ∧
    (i.isFirst = false → (t.block i.port).run = (s.block i.port).run) ∧
    ((s.block i.port).run = true → (t.block i.port).fault.getLsbD 0 = (s.block i.port).fault.getLsbD 0) ∧
    (i.port = .encoder → t.enc.fault.getLsbD 1 = s.enc.fault.getLsbD 1) ∧
    (i.isFirst = false → (s.block i.port).run = false → (t.block i.port).prev = (s.block i.port).prev) ∧
    (s.block i.port).outq <+: (t.block i.port).outq

/-! ### Arithmetic laws -/

/-- R74: the widths of ENC.NEXT: the raw delta fits nine bits in two's complement and is never wrapped to eight. -/
def Obligations.EncoderArithmeticNeverWraps : Prop :=
  (∀ prev s : Byte,
    -255 ≤ rawDelta prev s ∧ rawDelta prev s ≤ 255 ∧
    (s.setWidth 9 - prev.setWidth 9 : BitVec 9).toInt = rawDelta prev s ∧
    (BitVec.slt 127#9 (s.setWidth 9 - prev.setWidth 9) = decide (rawDelta prev s > 127)) ∧
    (BitVec.slt (s.setWidth 9 - prev.setWidth 9) (-128#9) = decide (rawDelta prev s < -128)) ∧
    -128 ≤ emittedDelta prev s ∧ emittedDelta prev s ≤ 127 ∧
    0 ≤ reconstructed prev s ∧ reconstructed prev s ≤ 255 ∧
    ((toByte (reconstructed prev s)).toNat : Int) = reconstructed prev s) ∧
  (140#8 - 10#8 : Byte).toInt = -126 ∧ rawDelta 10#8 140#8 = 130

/-- R75: the range of the reconstructed value, case by case. -/
def Obligations.ReconstructedValueStaysInRange : Prop :=
  ∀ prev s : Byte,
    (rawDelta prev s > 127 →
      (s.toNat : Int) ≥ prev.toNat + 128 ∧ reconstructed prev s = prev.toNat + 127 ∧
      reconstructed prev s ≤ s.toNat - 1 ∧ reconstructed prev s ≤ 254 ∧ 127 ≤ reconstructed prev s ∧
      (prev.toNat : Int) < reconstructed prev s ∧ reconstructed prev s < s.toNat) ∧
    (rawDelta prev s < -128 →
      (s.toNat : Int) ≤ prev.toNat - 129 ∧ reconstructed prev s = prev.toNat - 128 ∧
      (s.toNat : Int) + 1 ≤ reconstructed prev s ∧ 1 ≤ reconstructed prev s ∧ reconstructed prev s ≤ 127 ∧
      (s.toNat : Int) < reconstructed prev s ∧ reconstructed prev s < prev.toNat) ∧
    (-128 ≤ rawDelta prev s → rawDelta prev s ≤ 127 → reconstructed prev s = s.toNat) ∧
    0 ≤ reconstructed prev s ∧ reconstructed prev s ≤ 255 ∧
    ((toByte (reconstructed prev s)).toNat : Int) = reconstructed prev s

/-- R76: a step is exact if and only if the raw delta is in -128..127; a stream whose adjacent differences are is encoded
exactly; and the rule's three examples. -/
def Obligations.SmallDifferencesAreEncodedExactly : Prop :=
  (∀ prev s : Byte, reconstructed prev s = s.toNat ↔ -128 ≤ rawDelta prev s ∧ rawDelta prev s ≤ 127) ∧
  (∀ s : List Byte,
    (∀ (i : Nat) (x y : Byte), s[i]? = some x → s[i + 1]? = some y →
      -128 ≤ (y.toNat : Int) - x.toNat ∧ (y.toNat : Int) - x.toNat ≤ 127) →
    recStream s = s ∧ decStream (encStream s) = s ∧
    ∀ (i : Nat) (x y : Byte), s[i]? = some x → s[i + 1]? = some y →
      (encStream s)[i + 1]? = some (tc8 ((y.toNat : Int) - x.toNat))) ∧
  recStream [10#8, 140#8, 5#8] = [10#8, 137#8, 9#8] ∧ recStream [0#8, 255#8, 255#8] = [0#8, 127#8, 254#8] ∧
  recStream [0#8, 255#8, 100#8] = [0#8, 127#8, 100#8]

/-- R77: the error after a clamp, and that a constant input is reached by the third step; with the rule's two examples. -/
def Obligations.ConstantInputIsReachedInThreeSteps : Prop :=
  (∀ prev s : Byte,
    (rawDelta prev s > 127 →
      rawDelta (nextRec prev s) s = rawDelta prev s - 127 ∧ 1 ≤ rawDelta (nextRec prev s) s ∧
      rawDelta (nextRec prev s) s ≤ 128) ∧
    (rawDelta prev s < -128 →
      rawDelta (nextRec prev s) s = rawDelta prev s + 128 ∧ -127 ≤ rawDelta (nextRec prev s) s ∧
      rawDelta (nextRec prev s) s ≤ -1) ∧
    (rawDelta prev s ≠ 255 →
      -128 ≤ rawDelta (nextRec prev s) s ∧ rawDelta (nextRec prev s) s ≤ 127 ∧
      nextRec (nextRec prev s) s = s) ∧
    (rawDelta prev s = 255 →
      rawDelta (nextRec prev s) s = 128 ∧ rawDelta (nextRec (nextRec prev s) s) s = 1) ∧
    nextRec (nextRec (nextRec prev s) s) s = s) ∧
  recStream [0#8, 255#8, 255#8, 255#8] = [0#8, 127#8, 254#8, 255#8] ∧
  recStream [255#8, 0#8, 0#8] = [255#8, 127#8, 0#8]

/-- R94: the widths of DEC.NEXT: the sum fits ten bits, the range test on its upper two bits, and it is never wrapped to eight. -/
def Obligations.DecoderArithmeticNeverWraps : Prop :=
  (∀ prev b : Byte,
    -128 ≤ decodeSum prev b ∧ decodeSum prev b ≤ 382 ∧
    (prev.setWidth 10 + b.signExtend 10 : BitVec 10).toInt = decodeSum prev b ∧
    ((prev.setWidth 10 + b.signExtend 10 : BitVec 10).getLsbD 9 = decide (decodeSum prev b < 0)) ∧
    ((prev.setWidth 10 + b.signExtend 10 : BitVec 10).extractLsb' 8 2 = 0b01#2 ↔ decodeSum prev b > 255) ∧
    ((nextDec prev b).toNat : Int) = clampToUint8 (decodeSum prev b)) ∧
  (200#8 + 127#8 : Byte) = 71#8 ∧ nextDec 200#8 127#8 = 255#8 ∧ sumOutOfRange (decodeSum 200#8 127#8) = true

/-! ### Whole streams -/

/-- R73: executing ENC.STREAM from any state with `fault = 0` emits `enc(s)`, passes `prev` through `rec(s)`, keeps the length, and
no beat has `err = 1`; `enc` and `rec` satisfy the rule's recurrence. -/
def Obligations.EncoderStreamEmitsEncodedChannel : Prop :=
  ∀ (s : List Byte) (m : State), s ≠ [] → m.enc.fault = 0 →
    (∃ (t : State) (out : List OutBeat),
      execAll (streamOps .encoder s) m = .next t ∧
      t.enc.beats = m.enc.beats ++ out ∧ out.map OutBeat.data = encStream s ∧
      out.map OutBeat.first = true :: List.replicate (s.length - 1) false ∧
      (∀ x ∈ out, x.err = false) ∧
      (encStream s).length = s.length ∧ (recStream s).getLast? = some t.enc.prev ∧
      t.enc.run = true ∧ t.enc.fault = 0) ∧
    (∀ k : Nat, k < s.length → ∃ u : State,
      execAll ((streamOps .encoder s).take (k + 1)) m = .next u ∧ (recStream s)[k]? = some u.enc.prev) ∧
    (recStream s)[0]? = s[0]? ∧ (encStream s)[0]? = s[0]? ∧
    (∀ (i : Nat) (x p : Byte), s[i + 1]? = some x → (recStream s)[i]? = some p →
      (encStream s)[i + 1]? = some (tc8 (clampDelta ((x.toNat : Int) - p.toNat))) ∧
      ∃ r : Byte, (recStream s)[i + 1]? = some r ∧
        (r.toNat : Int) = (p.toNat : Int) + clampDelta ((x.toNat : Int) - p.toNat))

/-- R93: executing DEC.STREAM from any state emits `dec(b)`; from `fault = 0`, `INVALID_DATA` is set if and only if `bad(b)`, and the
beats with `err = 1` are exactly those from the first out-of-range sum on; a conformant stream decodes to the partial sums. -/
def Obligations.DecoderStreamEmitsReconstruction : Prop :=
  ∀ (b : List Byte) (m : State), b ≠ [] →
    (∃ (t : State) (out : List OutBeat),
      execAll (streamOps .decoder b) m = .next t ∧
      t.dec.beats = m.dec.beats ++ out ∧ out.map OutBeat.data = decStream b ∧
      out.map OutBeat.first = true :: List.replicate (b.length - 1) false ∧
      (m.dec.fault = 0 →
        (t.dec.fault.getLsbD 1 = badStream b) ∧ t.dec.fault.getLsbD 0 = false ∧
        ∀ (k : Nat) (x : OutBeat), out[k]? = some x → x.err = badStream (b.take (k + 1)))) ∧
    (decStream b)[0]? = b[0]? ∧
    (∀ (i : Nat) (x p : Byte), b[i + 1]? = some x → (decStream b)[i]? = some p →
      ∃ o : Byte, (decStream b)[i + 1]? = some o ∧ (o.toNat : Int) = clampToUint8 ((p.toNat : Int) + s8 x)) ∧
    (badStream b = true ↔ ∃ (i : Nat) (x p : Byte), b[i + 1]? = some x ∧ (decStream b)[i]? = some p ∧
      ((p.toNat : Int) + s8 x < 0 ∨ (p.toNat : Int) + s8 x > 255)) ∧
    (badStream b = false → ∀ (i : Nat) (x : Byte), (decStream b)[i]? = some x →
      (x.toNat : Int) = (b.head?.getD 0).toNat + (((b.drop 1).take i).map s8).sum)

/-- R97: the round trip gives the reconstructed stream, with no fault; not in general the stream itself. -/
def Obligations.RoundTripGivesTheReconstructedStream : Prop :=
  (∀ s : List Byte, s ≠ [] → decStream (encStream s) = recStream s ∧ badStream (encStream s) = false) ∧
  decStream (encStream [10#8, 140#8, 5#8]) = [10#8, 137#8, 9#8]

/-- R98: the exact round trip; the boundary case; the first sample is always exact. -/
def Obligations.RoundTripIsExactForSmallDifferences : Prop :=
  (∀ s : List Byte, s ≠ [] →
    (∀ (i : Nat) (x y : Byte), s[i]? = some x → s[i + 1]? = some y →
      -128 ≤ (y.toNat : Int) - x.toNat ∧ (y.toNat : Int) - x.toNat ≤ 127) →
    decStream (encStream s) = s) ∧
  encStream [200#8] = [200#8] ∧ decStream [200#8] = [200#8] ∧
  (∀ s : List Byte, (decStream (encStream s))[0]? = s[0]?)

/-- R99: re-encoding is the identity on conformant streams: the adjacent differences of the decoded stream are the deltas it
carried. Hence `enc` on the streams without an out-of-range step and `dec` on the conformant ones are inverse bijections. -/
def Obligations.ReencodingAConformantStreamIsIdentity : Prop :=
  (∀ b : List Byte, b ≠ [] → badStream b = false →
    encStream (decStream b) = b ∧ smooth (decStream b) = true ∧
    ∀ (i : Nat) (d x y : Byte), b[i + 1]? = some d → (decStream b)[i]? = some x → (decStream b)[i + 1]? = some y →
      (y.toNat : Int) - x.toNat = s8 d) ∧
  (∀ s : List Byte, s ≠ [] → smooth s = true → badStream (encStream s) = false ∧ decStream (encStream s) = s)

/-- R52 with R97, on the machine. The wire carries the head of the encoder's `outq`, whatever its `err`, as `first` and `data` alone.
With both blocks unfaulted and nothing pending, the words of a stream offered to the encoder, its beats carried over the wire to the
decoder, leave the decoder's sink with `rec(s)`, no beat flagged, and both blocks' runs at a good end. The list of turns, and that the
wire carries a beat at any time and unchecked, are the model's (notes/assumptions/6.md, 25.md, 29.md). -/
def Obligations.LoopbackDeliversTheReconstructedStream : Prop :=
  (∀ (m : State) (e : QEntry) (es : List QEntry), m.enc.outq = e :: es →
    ∃ t : State, takeTurn .forward m = .next t ∧
      t.decSource = m.decSource ++ [BitVec.ofBool e.beat.first ++ e.beat.data] ∧ t.enc.outq = es ∧
      t.encTaken = m.encTaken ++ [e.beat] ∧ t.dec = m.dec) ∧
  ∀ (s : List Byte) (m : State), s ≠ [] → m.enc.fault = 0 → m.dec.fault = 0 →
    m.enc.outq = [] → m.dec.outq = [] → m.encSource = [] → m.decSource = [] →
    m.turns = (streamWords s).flatMap (fun w =>
      [.offer .encoder w, .block .encoder, .forward, .block .decoder, .sink .decoder]) →
    ∃ (t : State) (out : List OutBeat),
      Host.Core.run Sys2Proof.core (5 * s.length) m = .next t ∧ t.turns = [] ∧
      t.decTaken = m.decTaken ++ out ∧ out.map OutBeat.data = recStream s ∧ (∀ x ∈ out, x.err = false) ∧
      t.goodEnd .encoder = true ∧ t.goodEnd .decoder = true

/-! ### Faults (60_exceptions.md) -/

/-- R151: `PROTO` is raised by a NEXT beat of either block while `run = 0`, and by no other operation; its effect; a further NEXT
faults again, and a later FIRST starts a stream normally, still flagged. -/
def Obligations.ProtoIsRaisedExactlyByNextBeforeFirst : Prop :=
  (∀ (i : Instr) (s t : State), exec i s = .next t →
    ((t.block i.port).fault.getLsbD 0 =
      ((s.block i.port).fault.getLsbD 0 || (!i.isFirst && !(s.block i.port).run)))) ∧
  (∀ (i : Instr) (s t : State), i.isFirst = false → (s.block i.port).run = false → exec i s = .next t →
    (t.block i.port).fault.getLsbD 0 = true ∧ (t.block i.port).status.getLsbD 1 = true ∧
    (t.block i.port).prev = (s.block i.port).prev ∧ (t.block i.port).run = false ∧
    (∃ x : Byte, (t.block i.port).beats = (s.block i.port).beats ++ [{ first := false, err := true, data := x }]) ∧
    (∀ j : Instr, j.port = i.port → j.isFirst = false → ∃ (u : State) (x : Byte), exec j t = .next u ∧
      (u.block i.port).fault.getLsbD 0 = true ∧
      (u.block i.port).beats = (t.block i.port).beats ++ [{ first := false, err := true, data := x }]) ∧
    (∀ j : Instr, j.port = i.port → j.isFirst = true → ∃ u : State, exec j t = .next u ∧
      (u.block i.port).run = true ∧ (u.block i.port).prev = j.byte ∧
      (u.block i.port).beats = (t.block i.port).beats ++ [{ first := true, err := true, data := j.byte }]))

/-- R150: `INVALID_DATA` is raised by DEC.NEXT alone, with `run = 1` and the sum out of range; its effect; `delta_encoder` never
raises it, and no stream that it produced makes the decoder raise it. -/
def Obligations.InvalidDataIsRaisedExactlyByABadSum : Prop :=
  (∀ (i : Instr) (s t : State), exec i s = .next t →
    ((t.block i.port).fault.getLsbD 1 =
      ((s.block i.port).fault.getLsbD 1 ||
        match i with
        | .decNext b => s.dec.run && decide ((s.dec.prev.toNat : Int) + s8 b < 0 ∨ (s.dec.prev.toNat : Int) + s8 b > 255)
        | .encFirst _ => false
        | .encNext _ => false
        | .decFirst _ => false))) ∧
  (∀ (b : Byte) (s t : State), s.dec.run = true → exec (.decNext b) s = .next t →
    ((s.dec.prev.toNat : Int) + s8 b < 0 ∨ (s.dec.prev.toNat : Int) + s8 b > 255) →
    t.dec.fault.getLsbD 1 = true ∧ t.dec.status.getLsbD 2 = true ∧
    (t.dec.prev.toNat : Int) = clampToUint8 ((s.dec.prev.toNat : Int) + s8 b) ∧
    t.dec.beats = s.dec.beats ++ [{ first := false, err := true, data := t.dec.prev }]) ∧
  (∀ s : List Byte, s ≠ [] → badStream (encStream s) = false)

/-- R153: within one operation the `run` test comes first and at most one fault is raised: at most one bit of `fault` is newly set,
and a NEXT with `run = 0` never sets `INVALID_DATA`. -/
def Obligations.AnOperationRaisesAtMostOneFault : Prop :=
  ∀ (i : Instr) (s t : State), exec i s = .next t →
    ¬ ((s.block i.port).fault.getLsbD 0 = false ∧ (t.block i.port).fault.getLsbD 0 = true ∧
       (s.block i.port).fault.getLsbD 1 = false ∧ (t.block i.port).fault.getLsbD 1 = true) ∧
    ((s.block i.port).run = false → (t.block i.port).fault.getLsbD 1 = (s.block i.port).fault.getLsbD 1)

/-- R14 and R154: no operation clears a bit of `fault`, so from the first fault on every beat a block produces is flagged; before
it none is; whatever operations run. -/
def Obligations.ErrIsStickyFromTheFirstFault : Prop :=
  ∀ (is : List Instr) (p : Port) (s t : State), execAll is s = .next t →
    (∀ k : Nat, (s.block p).fault.getLsbD k = true → (t.block p).fault.getLsbD k = true) ∧
    ∃ out : List OutBeat, (t.block p).beats = (s.block p).beats ++ out ∧ errSticky out = true ∧
      ((s.block p).fault ≠ 0 → ∀ x ∈ out, x.err = true) ∧
      ((t.block p).fault = 0 → ∀ x ∈ out, x.err = false)

/-- R155: over a whole step of the machine, whichever agent moves: a bit of `fault` that was set stays set unless the block is
reset in that step, and a reset clears all of `fault`, clears `run` and leaves `outq` empty. -/
def Obligations.OnlyResetClearsAFault : Prop :=
  ∀ (p : Port) (k : Nat) (s t : State), step s = .next t →
    (s.block p).fault.getLsbD k = true → (t.block p).fault.getLsbD k = false →
    (t.block p).fault = 0 ∧ (t.block p).run = false ∧ (t.block p).outq = []

/-- R15: the status port is `{fault[1], fault[0], run}` of the state as it stands. -/
def Obligations.StatusShowsRunAndFaults : Prop :=
  ∀ b : Block, b.status.getLsbD 0 = b.run ∧ b.status.getLsbD 1 = b.fault.getLsbD 0 ∧
    b.status.getLsbD 2 = b.fault.getLsbD 1

/-! ### State rules (10_state.md) -/

/-- R13: `run` is cleared by reset, set by a FIRST, and written by nothing else: an operation writes it only if it is a FIRST, and a
step writes it only by a move that executes an operation or resets. -/
def Obligations.RunIsWrittenByFirstAndResetOnly : Prop :=
  (∀ (i : Instr) (s t : State), exec i s = .next t →
    (t.block i.port).run = ((s.block i.port).run || i.isFirst)) ∧
  (∀ (p : Port) (s : State), ((s.resetPort p).block p).run = false) ∧
  (∀ (p : Port) (s t : State), step s = .next t → (t.block p).run ≠ (s.block p).run →
    ∃ (x : Turn) (xs : List Turn), s.turns = x :: xs ∧
      (x = .block p ∨ x = .reset p ∨ (∃ pins, x = .edge p pins) ∨ (p = .encoder ∧ x = .host .buildPacket) ∨
        (p = .decoder ∧ x = .host .decode)))

/-- R12, R21: before the first FIRST since reset, `prev` is read by nothing: change it, and no run of operations produces another
beat or another status. (This is why the model's own reset value of `prev`, notes/assumptions/1.md, shows nowhere.) -/
def Obligations.PredictorIsNotReadBeforeFirst : Prop :=
  ∀ (is : List Instr) (p : Port) (v : Byte) (s t : State), (s.block p).run = false → execAll is s = .next t →
    ∃ t' : State, execAll is (s.setBlock p { s.block p with prev := v }) = .next t' ∧
      (t'.block p).beats = (t.block p).beats ∧ (t'.block p).status = (t.block p).status ∧
      ((t.block p).run = true → t' = t)

/-- R20: a FIRST erases the past: after it, what a block puts out as `first` and `data` depends on the operations alone, whatever
state it was in. -/
def Obligations.FirstErasesThePast : Prop :=
  ∀ (p : Port) (i : Instr) (is : List Instr) (s₁ s₂ : State),
    i.port = p → i.isFirst = true → (∀ j ∈ is, j.port = p) →
    ∃ (t₁ t₂ : State) (out₁ out₂ : List OutBeat),
      execAll (i :: is) s₁ = .next t₁ ∧ execAll (i :: is) s₂ = .next t₂ ∧
      (t₁.block p).beats = (s₁.block p).beats ++ out₁ ∧ (t₂.block p).beats = (s₂.block p).beats ++ out₂ ∧
      out₁.map OutBeat.data = out₂.map OutBeat.data ∧ out₁.map OutBeat.first = out₂.map OutBeat.first ∧
      (t₁.block p).prev = (t₂.block p).prev ∧ (t₁.block p).run = (t₂.block p).run

/-- R22: two instances share nothing: what a block puts out does not depend on operations of the other that run in between. -/
def Obligations.BlocksDoNotInterfere : Prop :=
  ∀ (p : Port) (is : List Instr) (s : State), ∃ t u : State,
    execAll is s = .next t ∧ execAll (is.filter (fun j => j.port = p)) s = .next u ∧ t.block p = u.block p

/-! ### Reset and ports -/

/-- R21: the reset state of both blocks, in every piece to which the rule gives a value: of the machine as it starts, and after a
reset in any state, which discards the beats that were pending. Nothing is said of `prev`: the rule gives it no value. -/
def Obligations.ResetStateIsAsStated : Prop :=
  ∀ p : Port,
    ((State.reset.block p).run = false ∧ (State.reset.block p).fault = 0b00#2 ∧
      (State.reset.block p).outq = [] ∧ (State.reset.block p).status = 0b000#3) ∧
    ∀ s : State, ((s.resetPort p).block p).run = false ∧ ((s.resetPort p).block p).fault = 0b00#2 ∧
      ((s.resetPort p).block p).outq = [] ∧ ((s.resetPort p).block p).status = 0b000#3 ∧
      (s.resetPort p).taken p = s.taken p

/-- R170: an edge with `rst = 1`, whatever the other pins are: no beat is accepted or taken, the block goes to its reset state
(`prev` holds no value, so nothing is said of it), `in_ready` and `out_valid` are 0; nothing else changes. -/
def Obligations.ResetEdgeOverridesEverything : Prop :=
  ∀ (p : Port) (pins : PinsIn) (s : State), pins.rst = true → ∃ t : State,
    edgeTurn p pins s = .next t ∧ (t.block p).run = false ∧ (t.block p).fault = 0 ∧ (t.block p).outq = [] ∧
    t = s.setBlock p (t.block p) ∧ t.taken p = s.taken p ∧ t.source p = s.source p ∧
    (outPins p pins.rst (s.block p)).inReady = false ∧ (outPins p pins.rst (s.block p)).outValid = false

/-- R60: an edge without reset: the beat on the pins is accepted exactly when `in_valid` and `in_ready`, and then its operation
executes entirely; the head of `outq` is taken exactly when `out_valid` and `out_ready`; `in_ready` is room in `outq`, `out_valid` a
beat at least `LAT` edges old; at most one of each. From which edge the `LAT` edges are counted is the model's reading
(notes/assumptions/5.md: the appending edge does not count, so a new beat has age 0 after it), and so is the order of a take and an
accept at one edge (notes/assumptions/24.md). -/
def Obligations.EdgeFollowsTheHandshake : Prop :=
  ∀ (p : Port) (pins : PinsIn) (s : State), pins.rst = false →
    ((outPins p false (s.block p)).inReady = true ↔ (s.block p).outq.length < Config.qdepth) ∧
    ((outPins p false (s.block p)).outValid = true ↔ ∃ e ∈ (s.block p).outq, Config.lat ≤ e.age) ∧
    ∃ (t u : State) (gone new : List OutBeat),
      edgeTurn p pins s = .next t ∧ exec (decode p pins.word) s = .next u ∧
      t.taken p = s.taken p ++ gone ∧ (s.block p).beats ++ new = gone ++ (t.block p).beats ∧
      (t.block p).outq.map QEntry.age =
        ((s.block p).outq.drop gone.length).map (fun e => e.age + 1) ++ new.map (fun _ => 0) ∧
      ((outPins p false (s.block p)).outValid = true ∧ pins.outReady = true →
        gone = (s.block p).beats.take 1 ∧ gone.length = 1) ∧
      (¬ ((outPins p false (s.block p)).outValid = true ∧ pins.outReady = true) → gone = []) ∧
      ((outPins p false (s.block p)).inReady = true ∧ pins.inValid = true →
        new.length = 1 ∧ (u.block p).beats = (s.block p).beats ++ new ∧ (t.block p).prev = (u.block p).prev ∧
        (t.block p).run = (u.block p).run ∧ (t.block p).fault = (u.block p).fault) ∧
      (¬ ((outPins p false (s.block p)).inReady = true ∧ pins.inValid = true) →
        new = [] ∧ (t.block p).prev = (s.block p).prev ∧ (t.block p).run = (s.block p).run ∧
        (t.block p).fault = (s.block p).fault)

/-- R60: while `out_valid = 1` and the beat is not taken, `out_err`, `out_first` and `out_data` do not change. -/
def Obligations.OfferedBeatIsHeldStable : Prop :=
  ∀ (p : Port) (pins : PinsIn) (s t : State), pins.rst = false → edgeTurn p pins s = .next t →
    (outPins p false (s.block p)).outValid = true → pins.outReady = false →
    (outPins p false (t.block p)).outValid = true ∧
    (outPins p false (t.block p)).outErr = (outPins p false (s.block p)).outErr ∧
    (outPins p false (t.block p)).outFirst = (outPins p false (s.block p)).outFirst ∧
    (outPins p false (t.block p)).outData = (outPins p false (s.block p)).outData

/-- R18, R178: back-pressure. A block whose `outq` is full accepts nothing and its source keeps what it offers; the sink taking one
beat lifts the hold of a queue that is within its capacity. -/
def Obligations.FullQueueHoldsTheInput : Prop :=
  ∀ (p : Port) (ts : List Turn) (s : State), s.turns = .block p :: ts →
    (Config.qdepth ≤ (s.block p).outq.length → step s = .next { s with turns := ts }) ∧
    ((s.block p).outq.length = Config.qdepth →
      (s.block p).inReady = false ∧ ((s.takeHead p).block p).inReady = true ∧
      ((s.takeHead p).block p).outq = (s.block p).outq.tail)

/-- R32, R40: in whatever order blocks and sinks move, the output of a port is that of its accepted words executed one after the
other: the k-th beat produced is the result of the k-th word accepted and carries its `first` bit. (That the order of moves is a list
of turns in the state is the model's, notes/assumptions/6.md.) -/
def Obligations.OutputDoesNotDependOnTheSchedule : Prop :=
  ∀ (n : Nat) (p : Port) (s t : State), s.turns.all Turn.isBeatMove = true →
    Host.Core.run Sys2Proof.core n s = .next t →
    ∃ (ws : List In9) (u : State) (out : List OutBeat),
      s.source p = ws ++ t.source p ∧ execAll (ws.map (decode p)) s = .next u ∧
      (u.block p).beats = (s.block p).beats ++ out ∧ t.produced p = s.produced p ++ out ∧
      out.map OutBeat.first = ws.map (fun w => w.getLsbD 8) ∧ (t.block p).status = (u.block p).status

/-- R18: beats are never reordered, duplicated or dropped except by reset: over any step, what a port has produced only grows at
its end, or its block is reset and what its sink has taken stands. -/
def Obligations.NoBeatIsLostExceptByReset : Prop :=
  ∀ (p : Port) (s t : State), step s = .next t →
    (∃ new : List OutBeat, t.produced p = s.produced p ++ new) ∨
    ((t.block p).outq = [] ∧ (t.block p).run = false ∧ (t.block p).fault = 0 ∧ t.taken p = s.taken p)

/-! ### The step -/

/-- A step runs the decoded operation: when it is a block's turn, a word is offered and there is room, the step is the execution of
the operation the word selects, on the state with the move and the word used up (R39, R53, R163). -/
def Obligations.StepExecutesTheOfferedWord : Prop :=
  ∀ (p : Port) (w : In9) (ws : List In9) (ts : List Turn) (s : State),
    s.turns = .block p :: ts → s.source p = w :: ws → (s.block p).inReady = true →
    step s = exec (decode p w) (({ s with turns := ts } : State).setSource p ws)

/-- A placed word is the next operation: with room in the queue, the step after `withFetchWord` is the execution of exactly the
instruction that `decodeTableWord` reads (the placing is the model's, notes/assumptions/8.md). -/
def Obligations.PlacedWordIsExecutedNext : Prop :=
  ∀ (w : Nat) (s : State), w < 1024 → s.enc.inReady = true → s.dec.inReady = true →
    ∃ i : Instr, decodeTableWord 16 w = some i ∧ step (s.withFetchWord 16 w) = exec i s

/-- R165: a block with nothing offered does nothing, and a machine in which nobody moves keeps all its state. -/
def Obligations.IdleMachineKeepsItsState : Prop :=
  ∀ s : State, (s.turns = [] → step s = .next s) ∧
    ∀ (p : Port) (ts : List Turn), s.turns = .block p :: ts → s.source p = [] → step s = .next { s with turns := ts }

/-! ### Invariants -/

/-- The invariants of the hardware and of the host's software hold at reset. -/
def Obligations.InvariantsHoldAtReset : Prop := State.reset.BlockInv ∧ State.reset.host.Inv

/-- Every step keeps the invariant of the hardware: queues within `QDEPTH`, `err` sticky in a queue and only of a faulted block, only
flagged NEXT answers before the first FIRST, and the encoder's `INVALID_DATA` 0 (R18, R23, R51, R151). -/
def Obligations.StepKeepsTheBlockInvariant : Prop :=
  ∀ s t : State, s.BlockInv → step s = .next t → t.BlockInv

/-- Every step keeps the invariant of the host's software: memories in canonical form, one queue per declared channel, each with as
many samples as counted, and a parsed packet of the size its header says (R111, R112, R119). -/
def Obligations.StepKeepsTheHostInvariant : Prop :=
  ∀ s t : State, s.host.Inv → step s = .next t → t.host.Inv

/-! ### The host contract (42_host_contract.md, 20_memory.md) -/

/-- R112: `push`, its acceptance and its two failures; the state is tested before the frame. -/
def Obligations.PushAppendsOrFails : Prop :=
  ∀ (s : State) (e : HostEncoder) (f : Frame), s.host.encoder = some e →
    (e.life ≠ .opened → ∀ frame : Option Frame, hostCall (.push frame) s = .next (reply (.failed .streamClosed) s)) ∧
    (e.life = .opened → f.channels.length ≠ e.channelCount.toNat ∨ f.sampleCount = 0 →
      hostCall (.push (some f)) s = .next (reply (.failed .invalidArgument) s)) ∧
    (e.life = .opened → f.wf e.channelCount = true → e.queues.length = e.channelCount.toNat →
      ∃ e' : HostEncoder, hostCall (.push (some f)) s = .next (reply .ok (s.setEncoder e')) ∧
        e'.life = .opened ∧ e'.channelCount = e.channelCount ∧ e'.sampleRate = e.sampleRate ∧
        e'.totalSamples = e.totalSamples + f.sampleCount ∧ e'.queues.length = e.queues.length ∧
        ∀ (c : Nat) (q : List (List Byte)) (a : List Byte), e.queues[c]? = some q → f.channels[c]? = some a →
          e'.queues[c]? = some (q ++ [a]))

/-- R113: `finish`. -/
def Obligations.FinishFinalizesOnce : Prop :=
  ∀ (s : State) (e : HostEncoder), s.host.encoder = some e →
    (e.life = .opened → hostCall .finish s = .next (reply .ok (s.setEncoder { e with life := .finalized }))) ∧
    (e.life ≠ .opened → hostCall .finish s = .next (reply (.failed .streamClosed) s))

/-- R114, checks (1) to (3) in their order: each failure answers its caller and changes nothing else. -/
def Obligations.BuildPacketChecksInOrder : Prop :=
  ∀ (s : State) (e : HostEncoder), s.host.encoder = some e →
    (e.life = .consumed → hostCall .buildPacket s = .next (reply (.failed .alreadyProduced) s)) ∧
    (e.life ≠ .consumed → e.totalSamples = 0 →
      hostCall .buildPacket s = .next (reply (.failed .invalidArgument) s)) ∧
    (e.life = .opened → e.totalSamples ≠ 0 →
      hostCall .buildPacket s = .next (reply (.failed .invalidState) s))

/-- R114 (4), R118, R44: a finalized Encoder with samples, on an unfaulted `delta_encoder`, produces exactly one packet: header and
encoded channels, 14 + N*T bytes; it is `Consumed` then, and its queue released. The header's total is T where T fits its 32 bits
(R6: `T_MAX`); beyond that nothing is said of this one field (notes/assumptions/14.md). That the procedure is one move on the state's
own block is the model's (notes/assumptions/12.md). -/
def Obligations.BuildPacketProducesTheImage : Prop :=
  ∀ (s : State) (e : HostEncoder), s.host.encoder = some e → e.Inv → e.life = .finalized →
    0 < e.totalSamples → s.enc.fault = 0 →
    ∃ (t : State) (image : Memory) (e' : HostEncoder) (total : BitVec 32), hostCall .buildPacket s = .next t ∧
      t.host.replies = s.host.replies ++ [.packet image] ∧ t.host.packet = some image ∧
      t.host.encoder = some e' ∧ e'.life = .consumed ∧ (∀ q ∈ e'.queues, q = []) ∧
      image.wf = true ∧ image.len = 14 + e.channelCount.toNat * e.totalSamples ∧
      (e.totalSamples < 2 ^ 32 → total.toNat = e.totalSamples) ∧
      image.bytes = writeHeader ⟨e.sampleRate, e.channelCount, total⟩ ++
        (e.queues.map List.flatten).flatMap encStream ∧
      t.enc.fault = 0 ∧ t.enc.outq = [] ∧ t.dec = s.dec

/-- R118, R129: on a faulted `delta_encoder` no packet is produced: the caller gets `InvalidData`, and the block is reset (the error
kind is DEDUCED, notes/assumptions/13.md). -/
def Obligations.FaultedEncoderProducesNoPacket : Prop :=
  ∀ (s : State) (e : HostEncoder), s.host.encoder = some e → e.life = .finalized → 0 < e.totalSamples →
    s.enc.fault ≠ 0 →
    ∃ t : State, hostCall .buildPacket s = .next t ∧ t.host = (reply (.failed .invalidData) s).host ∧
      t.enc.fault = 0 ∧ t.enc.run = false ∧ t.enc.outq = [] ∧ t.dec = s.dec

/-- R117: `write` before the Encoder has finalized fails with `InvalidState`; else the packet's bytes become the file, unchanged. -/
def Obligations.WriteForwardsThePacketVerbatim : Prop :=
  ∀ (s : State) (e : HostEncoder), s.host.encoder = some e →
    (e.life = .opened → hostCall .write s = .next (reply (.failed .invalidState) s)) ∧
    (∀ image : Memory, e.life ≠ .opened → s.host.packet = some image →
      ∃ t : State, hostCall .write s = .next t ∧ t.host.file = image ∧
        t.host.replies = s.host.replies ++ [.ok] ∧ t.host.packet = some image ∧ t.enc = s.enc ∧ t.dec = s.dec)

/-- R125 with R33 and R34: parsing a written header gives back its three fields, for every rate, every `channels >= 1` and every
`totalSamples >= 1`, whatever bytes follow; the header has 14 bytes. -/
def Obligations.HeaderRoundTrip : Prop :=
  ∀ (h : Header) (rest : List Byte), h.channelCount ≠ 0 → h.totalSamples ≠ 0 →
    (writeHeader h).length = 14 ∧ parseHeader (Memory.ofBytes (writeHeader h ++ rest)) = some h

/-- R119, R126, R127: which files `read()` refuses, and what it hands on of the others: the payload is exactly N*T bytes, and bytes
beyond are ignored. The fields are those of R34. -/
def Obligations.ReaderAcceptsExactlyWholePackets : Prop :=
  ∀ (file : List Byte) (s : State), s.host.file = Memory.ofBytes file →
    let at4 := fun i => (file.getD i 0).toNat + 256 * (file.getD (i + 1) 0).toNat +
      65536 * (file.getD (i + 2) 0).toNat + 16777216 * (file.getD (i + 3) 0).toNat
    let n := (file.getD 8 0).toNat + 256 * (file.getD 9 0).toNat
    (file.length < 14 ∨ file.take 4 ≠ [0x61#8, 0x73#8, 0x69#8, 0x66#8] ∨ n = 0 ∨ at4 10 = 0 ∨
        file.length < 14 + n * at4 10 →
      hostCall .read s = .next (reply (.failed .invalidData) s)) ∧
    (14 ≤ file.length → file.take 4 = [0x61#8, 0x73#8, 0x69#8, 0x66#8] → n ≠ 0 → at4 10 ≠ 0 →
        14 + n * at4 10 ≤ file.length →
      ∃ (t : State) (q : Parsed), hostCall .read s = .next t ∧ t.host.parsed = some q ∧
        t.host.replies = s.host.replies ++ [.header q] ∧ t.enc = s.enc ∧ t.dec = s.dec ∧
        q.header.sampleRate.toNat = at4 4 ∧ q.header.channelCount.toNat = n ∧
        q.header.totalSamples.toNat = at4 10 ∧ q.payload = (file.drop 14).take (n * at4 10))

/-- R35: byte `i` of the EncodedChannel of channel `c` is at file offset `14 + c*T + i`, for every packet whose channels all have `T`
bytes, whatever its header says. -/
def Obligations.ChannelBytesAreAtTheirOffsets : Prop :=
  ∀ (h : Header) (t : Nat) (channels : List (List Byte)) (c i : Nat) (x : Byte) (a : List Byte),
    channels.length = h.channelCount.toNat → (∀ b ∈ channels, b.length = t) →
    channels[c]? = some a → a[i]? = some x →
    ∃ image : Memory, packetImage t h channels.flatten = some image ∧
      image.read (14 + c * t + i) = some x ∧
      image.read image.len = none ∧ image.len = 14 + h.channelCount.toNat * t

/-- R120, R129: `decode` is all or nothing. On an unfaulted `delta_decoder`: if no channel is bad, one buffer with every channel's
`dec`; if some channel is bad, `InvalidData`, no sample, and the block is reset. On a `delta_decoder` that is already faulted
(`status[2:1] != 0`): `InvalidData`, no sample, and the block is reset, whatever the packet holds. That the procedure is one move on
the state's own block is the model's (notes/assumptions/12.md). -/
def Obligations.DecodeIsAllOrNothing : Prop :=
  (∀ (s : State) (q : Parsed) (channels : List (List Byte)), s.host.parsed = some q → q.Inv → s.dec.fault = 0 →
    channels.length = q.header.channelCount.toNat → (∀ b ∈ channels, b.length = q.header.totalSamples.toNat) →
    channels.flatten = q.payload →
    ((∀ b ∈ channels, badStream b = false) → ∃ t : State, hostCall .decode s = .next t ∧
      t.host.replies = s.host.replies ++
        [.samples { sampleRate := q.header.sampleRate, channels := channels.map decStream }] ∧
      t.dec.fault = 0 ∧ t.dec.outq = [] ∧ t.enc = s.enc) ∧
    ((∃ b ∈ channels, badStream b = true) → ∃ t : State, hostCall .decode s = .next t ∧
      t.host = (reply (.failed .invalidData) s).host ∧
      t.dec.fault = 0 ∧ t.dec.run = false ∧ t.dec.outq = [] ∧ t.enc = s.enc)) ∧
  (∀ (s : State) (q : Parsed), s.host.parsed = some q → s.dec.fault ≠ 0 → ∃ t : State, hostCall .decode s = .next t ∧
    t.host = (reply (.failed .invalidData) s).host ∧
    t.dec.fault = 0 ∧ t.dec.run = false ∧ t.dec.outq = [] ∧ t.enc = s.enc)

/-- R110, the data flow from end to end: a finalized Encoder's packet, built, written, read and decoded, gives the reconstructed
samples of every channel, at the declared rate. (The total must fit the header's field, R6: `T_MAX`. The list of turns and the
procedures of one move each are the model's, notes/assumptions/6.md and 12.md.) -/
def Obligations.PacketTravelsEndToEnd : Prop :=
  ∀ (s : State) (e : HostEncoder), s.host.encoder = some e → e.Inv → e.life = .finalized →
    0 < e.totalSamples → e.totalSamples < 2 ^ 32 → s.enc.fault = 0 → s.dec.fault = 0 →
    s.turns = [.host .buildPacket, .host .write, .host .read, .host .decode] →
    ∃ (t : State) (image : Memory) (q : Parsed), Host.Core.run Sys2Proof.core 4 s = .next t ∧
      t.host.file = image ∧ t.host.parsed = some q ∧
      t.host.replies = s.host.replies ++ [.packet image, .ok, .header q,
        .samples { sampleRate := e.sampleRate, channels := (e.queues.map List.flatten).map recStream }]

/-- R122: a call of `push`, `finish`, `write` or `read` that fails changes no state but for the typed result it gives its caller. -/
def Obligations.FailingCallsChangeNothing : Prop :=
  ∀ (c : HostCall) (s t : State) (k : ErrKind),
    ((∃ f, c = .push f) ∨ c = .finish ∨ c = .write ∨ c = .read) →
    hostCall c s = .next t → t.host.replies.getLast? = some (.failed k) → t = reply (.failed k) s

/-- The file as a memory (R33, R36): what is stored is read back, every other offset reads as before, and an offset past the file does
not exist. -/
def Obligations.FileStoresAreReadBack : Prop :=
  ∀ (m : Memory) (off : Nat) (bs : List Byte), m.wf = true → off + bs.length ≤ m.len →
    ∃ m' : Memory, m.store off bs = some m' ∧ m'.wf = true ∧ m'.len = m.len ∧
      (∀ (k : Nat) (x : Byte), bs[k]? = some x → m'.read (off + k) = some x) ∧
      (∀ a : Nat, a < off ∨ off + bs.length ≤ a → m'.read a = m.read a) ∧
      (∀ a : Nat, m.len ≤ a → m'.read a = none)

/-- Where the machine stops by name, the model's choice in each case: a read at or past the end of the file (notes/assumptions/20.md:
R33 gives no such offset), two drivers of one port (notes/assumptions/17.md, from R40 c), a null frame and a frame of unequal channel
arrays pushed to an open Encoder (notes/assumptions/16.md, from 93_implementation_defined.md U20, U21). -/
def Obligations.TheMachineStopsByName : Prop :=
  (∀ (s : State) (off : Nat), s.host.file.len ≤ off →
    hostCall (.fileByte off) s = .fault (.offsetOutsideFile off)) ∧
  (∀ (s : State) (p : Port) (w v : In9) (ts : List Turn), s.turns = .contend p w v :: ts →
    step s = .refused (.twoDrivers p)) ∧
  (∀ (s : State) (e : HostEncoder), s.host.encoder = some e → e.life = .opened →
    hostCall (.push none) s = .refused .nullFrame ∧
    ∀ f : Frame, f.channels.length = e.channelCount.toNat → f.sampleCount ≠ 0 → f.equalLengths = false →
      hostCall (.push (some f)) s = .refused .unequalFrame)

/-- R61, R62: each mnemonic's line is its operation on the byte written, encoded as `0x100 + byte` for a FIRST and `byte` for a NEXT
on its block's port; a signed delta after `DEC.NEXT` is the byte `tc8` of it; the expansions of all five pseudo-operations, of which one
with a stream of no byte has none; and `RESET` is one rising edge with `rst = 1`, whatever the other pins. (The moves that
carry a trace out are the model's schedule, notes/assumptions/33.md: here it is named for `RESET` alone, whose edge R62 gives.) -/
def Obligations.TraceNotationExpandsAsStated : Prop :=
  (∀ n : Nat, n < 256 →
    (lineOp ⟨.encFirst, .byte n⟩ = some (.encFirst (BitVec.ofNat 8 n)) ∧
      encode (.encFirst (BitVec.ofNat 8 n)) = (.encoder, BitVec.ofNat 9 (0x100 + n))) ∧
    (lineOp ⟨.encNext, .byte n⟩ = some (.encNext (BitVec.ofNat 8 n)) ∧
      encode (.encNext (BitVec.ofNat 8 n)) = (.encoder, BitVec.ofNat 9 n)) ∧
    (lineOp ⟨.decFirst, .byte n⟩ = some (.decFirst (BitVec.ofNat 8 n)) ∧
      encode (.decFirst (BitVec.ofNat 8 n)) = (.decoder, BitVec.ofNat 9 (0x100 + n))) ∧
    (lineOp ⟨.decNext, .byte n⟩ = some (.decNext (BitVec.ofNat 8 n)) ∧
      encode (.decNext (BitVec.ofNat 8 n)) = (.decoder, BitVec.ofNat 9 n))) ∧
  (∀ e : Int, -128 ≤ e → e ≤ 127 → lineOp ⟨.decNext, .delta e⟩ = some (.decNext (tc8 e))) ∧
  (∀ (b : Byte) (bs : List Byte),
    expand (.encStream (b :: bs)) = some (.op (.encFirst b) :: bs.map (fun x => .op (.encNext x))) ∧
    expand (.decStream (b :: bs)) = some (.op (.decFirst b) :: bs.map (fun x => .op (.decNext x)))) ∧
  expand (.encStream []) = none ∧ expand (.decStream []) = none ∧
  (∀ cs : List (List Byte),
    ([] ∈ cs → expand (.encPacket cs) = none ∧ expand (.decPacket cs) = none) ∧
    ([] ∉ cs → ∃ es ds : List (List TraceStep),
      cs.map (fun c => expand (.encStream c)) = es.map some ∧ expand (.encPacket cs) = some es.flatten ∧
      cs.map (fun c => expand (.decStream c)) = ds.map some ∧ expand (.decPacket cs) = some ds.flatten)) ∧
  (∀ p : Port, expand (.reset p) = some [.reset p] ∧ traceTurns (.reset p) = [.reset p] ∧
    ∀ (pins : PinsIn) (s : State), pins.rst = true → takeTurn (.reset p) s = takeTurn (.edge p pins) s) ∧
  (∀ b : OutBeat, outNumber b = b.word.toNat)
end

