-- ==== Sys2Proof/Laws/State.lean ====
section
/-! SUPPORT. One lemma per field per update: of a block under the block operations, and of the state under the replacements by
port. No later proof unfolds a record update. -/

namespace Sys2Proof.Machine

/-! ### A block under its operations -/

@[simp] theorem Block.emit_prev (first : Bool) (data : Byte) (b : Block) : (Block.emit first data b).prev = b.prev := rfl

@[simp] theorem Block.emit_run (first : Bool) (data : Byte) (b : Block) : (Block.emit first data b).run = b.run := rfl

@[simp] theorem Block.emit_fault (first : Bool) (data : Byte) (b : Block) : (Block.emit first data b).fault = b.fault := rfl

@[simp] theorem Block.emit_outq (first : Bool) (data : Byte) (b : Block) : (Block.emit first data b).outq = b.outq ++ [{ beat := { first := first, err := errOf b.fault, data := data }, age := 0 }] := rfl

@[simp] theorem Block.emit_draws (first : Bool) (data : Byte) (b : Block) : (Block.emit first data b).draws = b.draws := rfl

@[simp] theorem Block.raise_prev (c : Cause) (b : Block) : (Block.raise c b).prev = b.prev := rfl

@[simp] theorem Block.raise_run (c : Cause) (b : Block) : (Block.raise c b).run = b.run := rfl

@[simp] theorem Block.raise_fault (c : Cause) (b : Block) : (Block.raise c b).fault = setFault c b.fault := rfl

@[simp] theorem Block.raise_outq (c : Cause) (b : Block) : (Block.raise c b).outq = b.outq := rfl

@[simp] theorem Block.raise_draws (c : Cause) (b : Block) : (Block.raise c b).draws = b.draws := rfl

@[simp] theorem Block.startStream_prev (x : Byte) (b : Block) : (Block.startStream x b).prev = x := rfl

@[simp] theorem Block.startStream_run (x : Byte) (b : Block) : (Block.startStream x b).run = true := rfl

@[simp] theorem Block.startStream_fault (x : Byte) (b : Block) : (Block.startStream x b).fault = b.fault := rfl

@[simp] theorem Block.startStream_outq (x : Byte) (b : Block) : (Block.startStream x b).outq = b.outq ++ [{ beat := { first := true, err := errOf b.fault, data := x }, age := 0 }] := rfl

@[simp] theorem Block.startStream_draws (x : Byte) (b : Block) : (Block.startStream x b).draws = b.draws := rfl

@[simp] theorem Block.protoNext_prev (p : Port) (b : Block) : (Block.protoNext p b).prev = b.prev := rfl

@[simp] theorem Block.protoNext_run (p : Port) (b : Block) : (Block.protoNext p b).run = b.run := rfl

@[simp] theorem Block.protoNext_fault (p : Port) (b : Block) : (Block.protoNext p b).fault = setFault .proto b.fault := rfl

@[simp] theorem Block.protoNext_outq (p : Port) (b : Block) : (Block.protoNext p b).outq = b.outq ++ [{ beat := { first := false, err := errOf (setFault .proto b.fault), data := Config.unspecifiedByte p b.draws }, age := 0 }] := rfl

@[simp] theorem Block.protoNext_draws (p : Port) (b : Block) : (Block.protoNext p b).draws = b.draws + 1 := rfl

@[simp] theorem Block.clear_prev (p : Port) (b : Block) : (Block.clear p b).prev = Config.unspecifiedByte p b.draws := rfl

@[simp] theorem Block.clear_run (p : Port) (b : Block) : (Block.clear p b).run = false := rfl

@[simp] theorem Block.clear_fault (p : Port) (b : Block) : (Block.clear p b).fault = 0 := rfl

@[simp] theorem Block.clear_outq (p : Port) (b : Block) : (Block.clear p b).outq = [] := rfl

@[simp] theorem Block.clear_draws (p : Port) (b : Block) : (Block.clear p b).draws = b.draws + 1 := rfl

@[simp] theorem Block.tick_prev (b : Block) : b.tick.prev = b.prev := rfl

@[simp] theorem Block.tick_run (b : Block) : b.tick.run = b.run := rfl

@[simp] theorem Block.tick_fault (b : Block) : b.tick.fault = b.fault := rfl

@[simp] theorem Block.tick_outq (b : Block) : b.tick.outq = b.outq.map (fun e => { e with age := e.age + 1 }) := rfl

@[simp] theorem Block.tick_draws (b : Block) : b.tick.draws = b.draws := rfl

/-! ### The state under the replacements by port -/

@[simp] theorem State.setBlock_host (p : Port) (b : Block) (s : State) : (s.setBlock p b).host = s.host := by cases p <;> rfl

@[simp] theorem State.setBlock_turns (p : Port) (b : Block) (s : State) : (s.setBlock p b).turns = s.turns := by cases p <;> rfl

@[simp] theorem State.setBlock_block_same (p : Port) (b : Block) (s : State) : (s.setBlock p b).block p = b := by cases p <;> rfl

theorem State.setBlock_block_other (p : Port) (b : Block) (s : State) (q : Port) (h : q ≠ p) : (s.setBlock p b).block q = s.block q := by
  cases p <;> cases q <;> first | rfl | exact absurd rfl h

@[simp] theorem State.setBlock_source (p : Port) (b : Block) (s : State) (q : Port) : (s.setBlock p b).source q = s.source q := by cases p <;> cases q <;> rfl

@[simp] theorem State.setBlock_taken (p : Port) (b : Block) (s : State) (q : Port) : (s.setBlock p b).taken q = s.taken q := by cases p <;> cases q <;> rfl

@[simp] theorem State.setSource_host (p : Port) (ws : List In9) (s : State) : (s.setSource p ws).host = s.host := by cases p <;> rfl

@[simp] theorem State.setSource_turns (p : Port) (ws : List In9) (s : State) : (s.setSource p ws).turns = s.turns := by cases p <;> rfl

@[simp] theorem State.setSource_block (p : Port) (ws : List In9) (s : State) (q : Port) : (s.setSource p ws).block q = s.block q := by cases p <;> cases q <;> rfl

@[simp] theorem State.setSource_source_same (p : Port) (ws : List In9) (s : State) : (s.setSource p ws).source p = ws := by cases p <;> rfl

theorem State.setSource_source_other (p : Port) (ws : List In9) (s : State) (q : Port) (h : q ≠ p) : (s.setSource p ws).source q = s.source q := by
  cases p <;> cases q <;> first | rfl | exact absurd rfl h

@[simp] theorem State.setSource_taken (p : Port) (ws : List In9) (s : State) (q : Port) : (s.setSource p ws).taken q = s.taken q := by cases p <;> cases q <;> rfl

@[simp] theorem State.setTaken_host (p : Port) (bs : List OutBeat) (s : State) : (s.setTaken p bs).host = s.host := by cases p <;> rfl

@[simp] theorem State.setTaken_turns (p : Port) (bs : List OutBeat) (s : State) : (s.setTaken p bs).turns = s.turns := by cases p <;> rfl

@[simp] theorem State.setTaken_block (p : Port) (bs : List OutBeat) (s : State) (q : Port) : (s.setTaken p bs).block q = s.block q := by cases p <;> cases q <;> rfl

@[simp] theorem State.setTaken_source (p : Port) (bs : List OutBeat) (s : State) (q : Port) : (s.setTaken p bs).source q = s.source q := by cases p <;> cases q <;> rfl

@[simp] theorem State.setTaken_taken_same (p : Port) (bs : List OutBeat) (s : State) : (s.setTaken p bs).taken p = bs := by cases p <;> rfl

theorem State.setTaken_taken_other (p : Port) (bs : List OutBeat) (s : State) (q : Port) (h : q ≠ p) : (s.setTaken p bs).taken q = s.taken q := by
  cases p <;> cases q <;> first | rfl | exact absurd rfl h

@[simp] theorem State.setBlock_block_self (p : Port) (s : State) : s.setBlock p (s.block p) = s := by cases p <;> rfl

@[simp] theorem State.setBlock_setBlock (p : Port) (b c : Block) (s : State) :
    (s.setBlock p b).setBlock p c = s.setBlock p c := by cases p <;> rfl

@[simp] theorem State.setSource_source_self (p : Port) (s : State) : s.setSource p (s.source p) = s := by cases p <;> rfl

@[simp] theorem State.setSource_setSource (p : Port) (v w : List In9) (s : State) :
    (s.setSource p v).setSource p w = s.setSource p w := by cases p <;> rfl

@[simp] theorem State.setTaken_taken_self (p : Port) (s : State) : s.setTaken p (s.taken p) = s := by cases p <;> rfl

@[simp] theorem State.block_encoder (s : State) : s.block .encoder = s.enc := rfl

@[simp] theorem State.block_decoder (s : State) : s.block .decoder = s.dec := rfl

/-! ### The state under a change of the moves to come or of the host's part -/

@[simp] theorem State.withTurns_block (s : State) (ts : List Turn) (p : Port) :
    ({ s with turns := ts } : State).block p = s.block p := by cases p <;> rfl

@[simp] theorem State.withTurns_source (s : State) (ts : List Turn) (p : Port) :
    ({ s with turns := ts } : State).source p = s.source p := by cases p <;> rfl

@[simp] theorem State.withTurns_taken (s : State) (ts : List Turn) (p : Port) :
    ({ s with turns := ts } : State).taken p = s.taken p := by cases p <;> rfl

@[simp] theorem State.withHost_block (s : State) (h : HostState) (p : Port) :
    ({ s with host := h } : State).block p = s.block p := by cases p <;> rfl

@[simp] theorem State.withHost_source (s : State) (h : HostState) (p : Port) :
    ({ s with host := h } : State).source p = s.source p := by cases p <;> rfl

@[simp] theorem State.withHost_taken (s : State) (h : HostState) (p : Port) :
    ({ s with host := h } : State).taken p = s.taken p := by cases p <;> rfl

/-! ### Answers to the host's caller -/

@[simp] theorem reply_block (r : Reply) (s : State) (p : Port) : (reply r s).block p = s.block p := by cases p <;> rfl

@[simp] theorem reply_source (r : Reply) (s : State) (p : Port) : (reply r s).source p = s.source p := by cases p <;> rfl

@[simp] theorem reply_taken (r : Reply) (s : State) (p : Port) : (reply r s).taken p = s.taken p := by cases p <;> rfl

@[simp] theorem reply_turns (r : Reply) (s : State) : (reply r s).turns = s.turns := rfl

@[simp] theorem reply_replies (r : Reply) (s : State) : (reply r s).host.replies = s.host.replies ++ [r] := rfl

@[simp] theorem reply_encoder (r : Reply) (s : State) : (reply r s).host.encoder = s.host.encoder := rfl

@[simp] theorem reply_packet (r : Reply) (s : State) : (reply r s).host.packet = s.host.packet := rfl

@[simp] theorem reply_file (r : Reply) (s : State) : (reply r s).host.file = s.host.file := rfl

@[simp] theorem reply_parsed (r : Reply) (s : State) : (reply r s).host.parsed = s.host.parsed := rfl

end Sys2Proof.Machine
end

