-- ==== Sys2Proof/Laws/Ops.lean ====
section
/-! SUPPORT. What the shared operations on a block do, said once: each of the four operations is one function of its own block
(`exec_eq`), appends one beat (`opBlock_outq`), and touches `run` and `fault` as the inversion lemmas say. -/

namespace Sys2Proof.Machine

/-- An operation as a function of its own block. -/
def opBlock : Instr → Block → Block
  | .encFirst x => Block.startStream x
  | .encNext x => Block.encodeNext .encoder x
  | .decFirst x => Block.startStream x
  | .decNext x => Block.decodeNext .decoder x

/-- Everything `exec` does: it answers a next state, in which the operation's own block is replaced. -/
theorem exec_eq (i : Instr) (s : State) :
    exec i s = .next (s.setBlock i.port (opBlock i (s.block i.port))) := by
  cases i <;> rfl

/-- Inversion of `exec`. -/
theorem exec_next {i : Instr} {s t : State} (h : exec i s = .next t) :
    t = s.setBlock i.port (opBlock i (s.block i.port)) := by
  rw [exec_eq] at h
  exact (Host.Outcome.next.inj h).symm

/-! ### ENC.NEXT and DEC.NEXT, by the `run` test -/

theorem encodeNext_run {p : Port} {x : Byte} {b : Block} (h : b.run = true) :
    Block.encodeNext p x b =
      Block.emit false (tc8 (emittedDelta b.prev x)) { b with prev := toByte (reconstructed b.prev x) } := by
  simp [Block.encodeNext, h]

theorem encodeNext_idle {p : Port} {x : Byte} {b : Block} (h : b.run = false) :
    Block.encodeNext p x b = Block.protoNext p b := by
  simp [Block.encodeNext, h]

theorem decodeNext_run {p : Port} {x : Byte} {b : Block} (h : b.run = true) :
    Block.decodeNext p x b =
      Block.emit false (toByte (clampToUint8 (decodeSum b.prev x)))
        { Block.checkSum (decodeSum b.prev x) b with prev := toByte (clampToUint8 (decodeSum b.prev x)) } := by
  simp [Block.decodeNext, h]

theorem decodeNext_idle {p : Port} {x : Byte} {b : Block} (h : b.run = false) :
    Block.decodeNext p x b = Block.protoNext p b := by
  simp [Block.decodeNext, h]

/-- The fault test of DEC.NEXT changes `fault` alone. -/
theorem checkSum_eq (sum : Int) (b : Block) :
    Block.checkSum sum b = { b with fault := if sumOutOfRange sum then setFault .invalidData b.fault else b.fault } := by
  unfold Block.checkSum Block.raise
  split <;> rfl

/-! ### One operation, whichever it is -/

/-- The beat an operation appends. -/
def newBeat (i : Instr) (b : Block) : OutBeat :=
  { first := i.isFirst
    err := errOf (opBlock i b).fault
    data :=
      match i with
      | .encFirst x => x
      | .encNext x => if b.run then tc8 (emittedDelta b.prev x) else Config.unspecifiedByte .encoder b.draws
      | .decFirst x => x
      | .decNext x =>
        if b.run then toByte (clampToUint8 (decodeSum b.prev x)) else Config.unspecifiedByte .decoder b.draws }

/-- Every operation appends exactly one beat (R70, R90). -/
theorem opBlock_outq (i : Instr) (b : Block) :
    (opBlock i b).outq = b.outq ++ [{ beat := newBeat i b, age := 0 }] := by
  cases i <;> cases h : b.run <;>
    simp [opBlock, newBeat, Instr.isFirst, h, encodeNext_run, encodeNext_idle, decodeNext_run, decodeNext_idle,
      checkSum_eq]

theorem opBlock_beats (i : Instr) (b : Block) : (opBlock i b).beats = b.beats ++ [newBeat i b] := by
  simp [Block.beats, opBlock_outq]

/-- `run` is set by a FIRST and left by a NEXT (R13). -/
theorem opBlock_run (i : Instr) (b : Block) : (opBlock i b).run = (b.run || i.isFirst) := by
  cases i <;> cases h : b.run <;>
    simp [opBlock, Instr.isFirst, h, encodeNext_run, encodeNext_idle, decodeNext_run, decodeNext_idle, checkSum_eq]

/-- What an operation does to `fault`: nothing, or it takes `PROTO` (a NEXT with `run = 0`), or `INVALID_DATA` (a DEC.NEXT with
`run = 1` and a bad sum) (R150, R151). -/
theorem opBlock_fault (i : Instr) (b : Block) :
    (opBlock i b).fault =
      if i.isFirst then b.fault
      else if b.run then
        match i with
        | .decNext x => if sumOutOfRange (decodeSum b.prev x) then setFault .invalidData b.fault else b.fault
        | _ => b.fault
      else setFault .proto b.fault := by
  cases i <;> cases h : b.run <;>
    simp [opBlock, Instr.isFirst, h, encodeNext_run, encodeNext_idle, decodeNext_run, decodeNext_idle, checkSum_eq]

theorem opBlock_prev (i : Instr) (b : Block) :
    (opBlock i b).prev =
      match i with
      | .encFirst x => x
      | .encNext x => if b.run then toByte (reconstructed b.prev x) else b.prev
      | .decFirst x => x
      | .decNext x => if b.run then toByte (clampToUint8 (decodeSum b.prev x)) else b.prev := by
  cases i <;> cases h : b.run <;>
    simp [opBlock, h, encodeNext_run, encodeNext_idle, decodeNext_run, decodeNext_idle]

theorem opBlock_draws (i : Instr) (b : Block) :
    (opBlock i b).draws = if i.isFirst || b.run then b.draws else b.draws + 1 := by
  cases i <;> cases h : b.run <;>
    simp [opBlock, Instr.isFirst, h, encodeNext_run, encodeNext_idle, decodeNext_run, decodeNext_idle, checkSum_eq]

/-- An operation does not look into the output queue: a FIFO's content passes through. -/
theorem opBlock_withOutq (i : Instr) (b : Block) (q : List QEntry) :
    opBlock i { b with outq := q } =
      { opBlock i b with outq := q ++ [{ beat := newBeat i b, age := 0 }] } := by
  cases i <;> cases h : b.run <;>
    simp [opBlock, newBeat, Instr.isFirst, h, encodeNext_run, encodeNext_idle, decodeNext_run, decodeNext_idle,
      checkSum_eq, Block.emit, Block.startStream, Block.protoNext, Block.raise]

theorem newBeat_withOutq (i : Instr) (b : Block) (q : List QEntry) :
    newBeat i { b with outq := q } = newBeat i b := by
  have h : (opBlock i { b with outq := q }).fault = (opBlock i b).fault := by rw [opBlock_withOutq]
  cases i <;> simp [newBeat, h]

/-! ### Fault bits -/

@[simp] theorem setFault_proto_bit0 (f : FaultBits) : (setFault .proto f)[0] = true := by
  simp [setFault, Cause.mask, Cause.code]

@[simp] theorem setFault_proto_bit1 (f : FaultBits) : (setFault .proto f)[1] = f[1] := by
  simp [setFault, Cause.mask, Cause.code]

@[simp] theorem setFault_invalidData_bit0 (f : FaultBits) : (setFault .invalidData f)[0] = f[0] := by
  simp [setFault, Cause.mask, Cause.code]

@[simp] theorem setFault_invalidData_bit1 (f : FaultBits) : (setFault .invalidData f)[1] = true := by
  simp [setFault, Cause.mask, Cause.code]

/-- No cause clears a bit (R14). -/
theorem setFault_keeps (c : Cause) (f : FaultBits) (k : Nat) (h : f.getLsbD k = true) :
    (setFault c f).getLsbD k = true := by
  simp [setFault, h]

@[simp] theorem errOf_setFault (c : Cause) (f : FaultBits) : errOf (setFault c f) = true := by
  revert f
  cases c <;> decide

theorem errOf_eq_false {f : FaultBits} : errOf f = false ↔ f = 0 := by simp [errOf]

theorem errOf_eq_true {f : FaultBits} : errOf f = true ↔ f ≠ 0 := by simp [errOf]

/-- No operation clears a bit of `fault` (R14). -/
theorem opBlock_fault_keeps (i : Instr) (b : Block) (k : Nat) (h : b.fault.getLsbD k = true) :
    (opBlock i b).fault.getLsbD k = true := by
  rw [opBlock_fault]
  split
  · exact h
  · split
    · split
      · split
        · exact setFault_keeps _ _ _ h
        · exact h
      · exact h
    · exact setFault_keeps _ _ _ h

/-- A faulted block stays faulted under every operation. -/
theorem opBlock_err_keeps (i : Instr) (b : Block) (h : errOf b.fault = true) : errOf (opBlock i b).fault = true := by
  rw [opBlock_fault]
  split
  · exact h
  · split
    · split
      · split
        · simp
        · exact h
      · exact h
    · simp

end Sys2Proof.Machine
end

