-- ==== Sys2Proof/Laws/Run.lean ====
section
/-! SUPPORT. Runs of operations: `execAll` and the host's `transfer` as folds over a block, and the beats they produce. -/

namespace Sys2Proof.Machine

theorem decode_port (p : Port) (w : In9) : (decode p w).port = p := by
  unfold decode decodeBeat
  split <;> rfl

theorem decodeBeat_port (p : Port) (b : InBeat) : (decodeBeat p b).port = p := by
  unfold decodeBeat
  split <;> rfl

theorem decodeBeat_isFirst (p : Port) (b : InBeat) : (decodeBeat p b).isFirst = b.first := by
  unfold decodeBeat
  split <;> simp [Instr.isFirst, *]

theorem decode_isFirst (p : Port) (w : In9) : (decode p w).isFirst = w.getLsbD 8 := by
  simp [decode, decodeBeat_isFirst, InBeat.ofWord]

/-- Accepting a word is one operation on the block of that port. -/
theorem acceptWord_eq (p : Port) (w : In9) (s : State) :
    acceptWord p w s = .next (s.setBlock p (opBlock (decode p w) (s.block p))) := by
  rw [acceptWord, exec_eq, decode_port]

/-- A block under operations in order. -/
def runBlock (is : List Instr) (b : Block) : Block := is.foldl (fun c i => opBlock i c) b

@[simp] theorem runBlock_nil (b : Block) : runBlock [] b = b := rfl

@[simp] theorem runBlock_cons (i : Instr) (is : List Instr) (b : Block) :
    runBlock (i :: is) b = runBlock is (opBlock i b) := rfl

/-- The beats operations append, in order. -/
def runBeats : List Instr → Block → List OutBeat
  | [], _ => []
  | i :: is, b => newBeat i b :: runBeats is (opBlock i b)

@[simp] theorem runBeats_nil (b : Block) : runBeats [] b = [] := rfl

@[simp] theorem runBeats_cons (i : Instr) (is : List Instr) (b : Block) :
    runBeats (i :: is) b = newBeat i b :: runBeats is (opBlock i b) := rfl

theorem runBlock_beats (is : List Instr) (b : Block) : (runBlock is b).beats = b.beats ++ runBeats is b := by
  induction is generalizing b with
  | nil => simp
  | cons i is ih => simp [ih, opBlock_beats]

theorem runBlock_outq (is : List Instr) (b : Block) :
    (runBlock is b).outq = b.outq ++ (runBeats is b).map (fun x => { beat := x, age := 0 }) := by
  induction is generalizing b with
  | nil => simp
  | cons i is ih => simp [ih, opBlock_outq]

theorem runBeats_withOutq (is : List Instr) (b : Block) (q : List QEntry) :
    runBeats is { b with outq := q } = runBeats is b := by
  induction is generalizing b q with
  | nil => rfl
  | cons i is ih =>
    rw [runBeats_cons, runBeats_cons, newBeat_withOutq, opBlock_withOutq, ih]

theorem runBlock_withOutq (is : List Instr) (b : Block) (q : List QEntry) :
    runBlock is { b with outq := q } =
      { runBlock is b with outq := q ++ (runBeats is b).map (fun x => { beat := x, age := 0 }) } := by
  induction is generalizing b q with
  | nil => simp
  | cons i is ih =>
    rw [runBlock_cons, opBlock_withOutq, ih, runBlock_cons, runBeats_cons]
    rw [show runBeats is { opBlock i b with outq := _ } = _ from runBeats_withOutq is (opBlock i b) _]
    simp

@[simp] theorem runBeats_length (is : List Instr) (b : Block) : (runBeats is b).length = is.length := by
  induction is generalizing b with
  | nil => rfl
  | cons i is ih => simp [ih]

/-- Each beat carries its operation's `first` bit (R32). -/
theorem runBeats_first (is : List Instr) (b : Block) : (runBeats is b).map OutBeat.first = is.map Instr.isFirst := by
  induction is generalizing b with
  | nil => rfl
  | cons i is ih => simp [ih, newBeat]

/-- Every run of operations completes; the block of a port sees exactly the operations of that port (R22). -/
theorem execAll_spec (is : List Instr) (s : State) :
    ∃ t, execAll is s = .next t ∧ ∀ p, t.block p = runBlock (is.filter (fun j => j.port = p)) (s.block p) := by
  induction is generalizing s with
  | nil => exact ⟨s, rfl, fun p => rfl⟩
  | cons i is ih =>
    obtain ⟨t, ht, hb⟩ := ih (s.setBlock i.port (opBlock i (s.block i.port)))
    refine ⟨t, by simp [execAll, exec_eq, andThen, ht], fun p => ?_⟩
    rw [hb p]
    by_cases h : i.port = p
    · subst h
      simp
    · simp [h, State.setBlock_block_other _ _ _ _ (Ne.symm h)]

/-- Inversion of `execAll`. -/
theorem execAll_block {is : List Instr} {s t : State} (h : execAll is s = .next t) (p : Port) :
    t.block p = runBlock (is.filter (fun j => j.port = p)) (s.block p) := by
  obtain ⟨u, hu, hb⟩ := execAll_spec is s
  rw [hu] at h
  rw [← Host.Outcome.next.inj h]
  exact hb p

theorem filter_port_eq_self {is : List Instr} {p : Port} (h : ∀ j ∈ is, j.port = p) :
    is.filter (fun j => j.port = p) = is := by
  rw [List.filter_eq_self]
  simpa using h

/-- A run of one port's operations replaces that port's block and nothing else. -/
theorem execAll_samePort {is : List Instr} {p : Port} (hp : ∀ j ∈ is, j.port = p) (s : State) :
    execAll is s = .next (s.setBlock p (runBlock is (s.block p))) := by
  induction is generalizing s with
  | nil => simp [execAll]
  | cons i is ih =>
    have hi : i.port = p := hp i (by simp)
    have := ih (fun j hj => hp j (by simp [hj])) (s.setBlock p (opBlock i (s.block p)))
    simp [execAll, exec_eq, andThen, hi, this]

theorem streamOps_port (p : Port) (bs : List Byte) : ∀ j ∈ streamOps p bs, j.port = p := by
  cases bs with
  | nil => simp [streamOps]
  | cons b rest =>
    intro j hj
    simp only [streamOps, List.mem_cons, List.mem_map] at hj
    rcases hj with rfl | ⟨x, -, rfl⟩ <;> exact decodeBeat_port _ _

theorem ofWord_word (b : InBeat) : InBeat.ofWord b.word = b := by
  cases b with
  | mk first data =>
    revert data
    cases first <;> decide

theorem decode_word (p : Port) (b : InBeat) : decode p b.word = decodeBeat p b := by
  rw [decode, ofWord_word]

/-- The words of a channel select the operations of its stream (R44, R62). -/
theorem decode_streamWords (p : Port) (bs : List Byte) : (streamWords bs).map (decode p) = streamOps p bs := by
  cases bs with
  | nil => rfl
  | cons b rest => simp [streamWords, streamOps, decode_word]

theorem decode_packetWords (p : Port) (cs : List (List Byte)) :
    (packetWords cs).map (decode p) = cs.flatMap (streamOps p) := by
  simp [packetWords, List.map_flatMap, decode_streamWords]

/-- The host's transfer, from an empty queue: the block runs the operations, the queue is empty again, and the sink has taken every
beat. -/
theorem transfer_eq (p : Port) (ws : List In9) (s : State) (h : (s.block p).outq = []) :
    transfer p ws s = .next
      ((s.setBlock p { runBlock (ws.map (decode p)) (s.block p) with outq := [] }).setTaken p
        (s.taken p ++ runBeats (ws.map (decode p)) (s.block p))) := by
  induction ws generalizing s with
  | nil =>
    have e : ({ s.block p with outq := [] } : Block) = s.block p := by rw [← h]
    simp [transfer, e]
  | cons w ws ih =>
    have ho : (opBlock (decode p w) (s.block p)).outq =
        [{ beat := newBeat (decode p w) (s.block p), age := 0 }] := by simp [opBlock_outq, h]
    have ht : ((s.setBlock p (opBlock (decode p w) (s.block p))).takeHead p) =
        (s.setBlock p { opBlock (decode p w) (s.block p) with outq := [] }).setTaken p
          (s.taken p ++ [newBeat (decode p w) (s.block p)]) := by
      simp [State.takeHead, ho]
    simp only [transfer, acceptWord_eq, andThen, ht]
    rw [ih _ (by simp)]
    simp [runBlock_withOutq, runBeats_withOutq]
    cases p <;> rfl

theorem newBeats_taken (p : Port) (s : State) (b : Block) (out : List OutBeat) :
    newBeats p s ((s.setBlock p b).setTaken p (s.taken p ++ out)) = out := by
  simp [newBeats]

end Sys2Proof.Machine
end

