-- ==== Sys2Proof/Laws/Agents.lean ====
section
/-! SUPPORT. What a step can do, said once. `step_turn` opens a step; `PortPath` is what any move but a reset does to one block and
its sink; `step_port` says that a step is such a path, at most ended by a reset. Invariants of a block follow by induction on the
path. -/

namespace Sys2Proof.Machine

/-- Inversion of `step`: nothing is to be done, or the next move is made. -/
theorem step_turn {s t : State} (h : step s = .next t) :
    (s.turns = [] ∧ t = s) ∨ ∃ x xs, s.turns = x :: xs ∧ takeTurn x { s with turns := xs } = .next t := by
  unfold step nextTurn at h
  split at h
  · next e => cases h; exact .inl ⟨e, rfl⟩
  · next x xs e => exact .inr ⟨x, xs, e, h⟩

theorem step_of_turns {s : State} {x : Turn} {xs : List Turn} (h : s.turns = x :: xs) :
    step s = takeTurn x { s with turns := xs } := by
  unfold step nextTurn
  rw [h]

/-! ### The sink -/

theorem takeHead_nil {p : Port} {s : State} (h : (s.block p).outq = []) : s.takeHead p = s := by
  simp [State.takeHead, h]

theorem takeHead_cons {p : Port} {s : State} {e : QEntry} {es : List QEntry} (h : (s.block p).outq = e :: es) :
    s.takeHead p = (s.setBlock p { s.block p with outq := es }).setTaken p (s.taken p ++ [e.beat]) := by
  simp [State.takeHead, h]

@[simp] theorem takeHead_host (p : Port) (s : State) : (s.takeHead p).host = s.host := by
  unfold State.takeHead; split <;> simp

@[simp] theorem takeHead_turns (p : Port) (s : State) : (s.takeHead p).turns = s.turns := by
  unfold State.takeHead; split <;> simp

@[simp] theorem takeHead_source (p q : Port) (s : State) : (s.takeHead p).source q = s.source q := by
  unfold State.takeHead; split <;> simp

theorem takeHead_other {p q : Port} (h : q ≠ p) (s : State) :
    (s.takeHead p).block q = s.block q ∧ (s.takeHead p).taken q = s.taken q := by
  unfold State.takeHead
  split
  · exact ⟨rfl, rfl⟩
  · simp [State.setBlock_block_other _ _ _ _ h, State.setTaken_taken_other _ _ _ _ h]

/-! ### Paths of one port -/

/-- What the moves of agents other than a reset do to one block and what its sink has taken. -/
inductive PortPath (p : Port) : Block → List OutBeat → Block → List OutBeat → Prop where
  | refl (b : Block) (tk : List OutBeat) : PortPath p b tk b tk
  | take (b : Block) (tk : List OutBeat) (e : QEntry) (es : List QEntry) (h : b.outq = e :: es) :
      PortPath p b tk { b with outq := es } (tk ++ [e.beat])
  | drain (b : Block) (tk : List OutBeat) : PortPath p b tk { b with outq := [] } (tk ++ b.beats)
  | tick (b : Block) (tk : List OutBeat) : PortPath p b tk b.tick tk
  | op (b : Block) (tk : List OutBeat) (i : Instr) (hp : i.port = p) (room : b.outq.length < Config.qdepth) :
      PortPath p b tk (opBlock i b) tk
  | trans {b₁ b₂ b₃ : Block} {k₁ k₂ k₃ : List OutBeat} (h₁ : PortPath p b₁ k₁ b₂ k₂) (h₂ : PortPath p b₂ k₂ b₃ k₃) :
      PortPath p b₁ k₁ b₃ k₃

/-- Between two states: a path of the port, at most ended by a reset, before which its queue was emptied or nothing was done. -/
def PortStep (p : Port) (s t : State) : Prop :=
  PortPath p (s.block p) (s.taken p) (t.block p) (t.taken p) ∨
    ∃ b, PortPath p (s.block p) (s.taken p) b (t.taken p) ∧ t.block p = Block.clear p b ∧
      (b.outq = [] ∨ t.taken p = s.taken p)

theorem PortStep.same {p : Port} {s t : State} (hb : t.block p = s.block p) (hk : t.taken p = s.taken p) :
    PortStep p s t := by
  left
  rw [hb, hk]
  exact .refl _ _

theorem portPath_takeHead (p q : Port) (s : State) :
    PortPath q (s.block q) (s.taken q) ((s.takeHead p).block q) ((s.takeHead p).taken q) := by
  by_cases hq : q = p
  · subst hq
    cases h : (s.block q).outq with
    | nil => rw [takeHead_nil h]; exact .refl _ _
    | cons e es => rw [takeHead_cons h]; simpa using PortPath.take _ _ e es h
  · obtain ⟨hb, hk⟩ := takeHead_other hq s
    rw [hb, hk]
    exact .refl _ _

theorem portPath_accept {p q : Port} {w : In9} {s t : State} (room : (s.block p).inReady = true)
    (h : acceptWord p w s = .next t) : PortPath q (s.block q) (s.taken q) (t.block q) (t.taken q) := by
  rw [acceptWord_eq] at h
  cases h
  by_cases hq : q = p
  · subst hq
    simpa using PortPath.op (s.block q) (s.taken q) (decode q w) (decode_port q w) (by simpa [Block.inReady] using room)
  · rw [State.setBlock_block_other _ _ _ _ hq]
    simpa using PortPath.refl _ _

/-- Operations one at a time, each beat taken at once: the host's transfer (R44). -/
theorem portPath_transfer (p : Port) (ws : List In9) {s t : State} (hq : (s.block p).outq = [])
    (h : transfer p ws s = .next t) (q : Port) : PortPath q (s.block q) (s.taken q) (t.block q) (t.taken q) := by
  induction ws generalizing s with
  | nil => cases h; exact .refl _ _
  | cons w ws ih =>
    have room : (s.block p).inReady = true := by simp [Block.inReady, hq, Config.qdepth]
    simp only [transfer] at h
    cases ha : acceptWord p w s with
    | next u =>
      rw [ha] at h
      have hu : (u.takeHead p |>.block p).outq = [] := by
        rw [acceptWord_eq] at ha
        cases ha
        rw [takeHead_cons (e := ⟨newBeat (decode p w) (s.block p), 0⟩) (es := []) (by simp [opBlock_outq, hq])]
        simp
      exact (portPath_accept room ha).trans ((portPath_takeHead p q u).trans (ih hu h))
    | fault r => rw [ha] at h; cases h
    | refused r => rw [ha] at h; cases h

theorem transfer_outq {p : Port} {ws : List In9} {s t : State} (hq : (s.block p).outq = [])
    (h : transfer p ws s = .next t) : (t.block p).outq = [] := by
  rw [transfer_eq p ws s hq] at h
  cases h
  simp

theorem portPath_drain (p q : Port) (s : State) :
    PortPath q (s.block q) (s.taken q) ((s.drain p).block q) ((s.drain p).taken q) := by
  unfold State.drain
  by_cases hq : q = p
  · subst hq
    simpa using PortPath.drain (s.block q) (s.taken q)
  · simp [State.setBlock_block_other _ _ _ _ hq, State.setTaken_taken_other _ _ _ _ hq]
    exact .refl _ _

theorem drain_outq (p : Port) (s : State) : ((s.drain p).block p).outq = [] := by simp [State.drain]

/-- The path of a host procedure that drives a block (R118, R120). -/
theorem portPath_procedure {p : Port} {ws : List In9} {s t : State}
    (h : transfer p ws (s.drain p) = .next t) (q : Port) :
    PortPath q (s.block q) (s.taken q) (t.block q) (t.taken q) ∧ (t.block p).outq = [] :=
  ⟨(portPath_drain p q s).trans (portPath_transfer p ws (drain_outq p s) h q), transfer_outq (drain_outq p s) h⟩

theorem portStep_reset (p q : Port) {s t : State}
    (h : PortPath q (s.block q) (s.taken q) (t.block q) (t.taken q))
    (ho : (t.block p).outq = [] ∨ t.taken p = s.taken p) : PortStep q s (t.resetPort p) := by
  by_cases hq : q = p
  · subst hq
    right
    refine ⟨t.block q, by simpa [State.resetPort] using h, by simp [State.resetPort], ?_⟩
    simpa [State.resetPort] using ho
  · left
    simpa [State.resetPort, State.setBlock_block_other _ _ _ _ hq] using h

theorem edgeSettles_path (p q : Port) (pins : PinsIn) (s : State) :
    PortPath q (s.block q) (s.taken q) ((edgeSettles p pins s).block q) ((edgeSettles p pins s).taken q) := by
  have key : ∀ u : State, PortPath q (u.block q) (u.taken q)
      ((u.setBlock p (u.block p).tick).block q) ((u.setBlock p (u.block p).tick).taken q) := by
    intro u
    by_cases hq : q = p
    · subst hq
      simpa using PortPath.tick (u.block q) (u.taken q)
    · rw [State.setBlock_block_other _ _ _ _ hq]
      simpa using PortPath.refl _ _
  unfold edgeSettles
  split
  · exact (portPath_takeHead p q s).trans (key _)
  · exact key _

/-- The queue of the edge's own block after it has settled is no longer than before. -/
theorem edgeSettles_room {p : Port} {pins : PinsIn} {s : State} (h : (s.block p).inReady = true) :
    ((edgeSettles p pins s).block p).inReady = true := by
  simp only [Block.inReady, decide_eq_true_eq] at h ⊢
  unfold edgeSettles
  split
  · cases hq : (s.block p).outq with
    | nil => rw [takeHead_nil hq]; simpa using h
    | cons e es =>
      rw [takeHead_cons hq]
      rw [hq] at h
      simp at h ⊢
      omega
  · simpa using h

theorem edgeAccepts_room {p : Port} {pins : PinsIn} {b : Block} (h : edgeAccepts p pins b = true) :
    b.inReady = true := by
  simp [edgeAccepts, outPins] at h
  exact h.1.2

theorem fail_next {k : ErrKind} {s t : State} (h : fail k s = .next t) : t = reply (.failed k) s := by
  cases h; rfl

/-- Inversion of `andThen`. -/
theorem andThen_next {o : Host.Outcome State Fault Refusal} {f : State → Host.Outcome State Fault Refusal} {t : State}
    (h : andThen o f = .next t) : ∃ u, o = .next u ∧ f u = .next t := by
  cases o with
  | next u => exact ⟨u, rfl, h⟩
  | fault r => cases h
  | refused r => cases h

/-- What a call of the host's software does to a block. -/
theorem hostCall_port (p : Port) {c : HostCall} {s t : State} (h : hostCall c s = .next t) : PortStep p s t := by
  cases c with
  | create rate n =>
    simp only [hostCall, hostCreate] at h
    split at h
    · cases h
    · cases h; exact .same (by simp) (by simp)
  | push f =>
    simp only [hostCall, hostPush] at h
    split at h
    · cases h
    · split at h
      · rw [fail_next h]; exact .same (by simp) (by simp)
      · split at h
        · cases h
        · split at h
          · rw [fail_next h]; exact .same (by simp) (by simp)
          · split at h
            · cases h; exact .same (by simp [State.setEncoder]) (by simp [State.setEncoder])
            · cases h
  | finish =>
    simp only [hostCall, hostFinish] at h
    split at h
    · cases h
    · split at h
      · cases h; exact .same (by simp [State.setEncoder]) (by simp [State.setEncoder])
      · rw [fail_next h]; exact .same (by simp) (by simp)
  | buildPacket =>
    simp only [hostCall, hostBuildPacket] at h
    split at h
    · cases h
    · split at h
      · rw [fail_next h]; exact .same (by simp) (by simp)
      · split at h
        · rw [fail_next h]; exact .same (by simp) (by simp)
        · split at h
          · rw [fail_next h]; exact .same (by simp) (by simp)
          · obtain ⟨u, hu, h⟩ := andThen_next h
            obtain ⟨hp, ho⟩ := portPath_procedure hu p
            dsimp only at h
            split at h
            · rw [fail_next h]
              have := portStep_reset .encoder p hp (.inl ho)
              unfold PortStep at this ⊢
              simpa using this
            · split at h
              · cases h
                left
                simpa [deliverPacket] using hp
              · cases h
  | write =>
    simp only [hostCall, hostWrite] at h
    split at h
    · split at h
      · cases h
      · cases h; exact .same (by simp) (by simp)
    · rw [fail_next h]; exact .same (by simp) (by simp)
  | load bytes =>
    simp only [hostCall, hostLoad] at h
    cases h; exact .same (by simp) (by simp)
  | read =>
    simp only [hostCall, hostRead] at h
    split at h
    · rw [fail_next h]; exact .same (by simp) (by simp)
    · cases h; exact .same (by simp) (by simp)
  | decode =>
    simp only [hostCall, hostDecode] at h
    split at h
    · cases h
    · obtain ⟨u, hu, h⟩ := andThen_next h
      obtain ⟨hp, ho⟩ := portPath_procedure hu p
      split at h
      · rw [fail_next h]
        have := portStep_reset .decoder p hp (.inl ho)
        unfold PortStep at this ⊢
        simpa using this
      · cases h
        left
        simpa using hp
  | fileByte off =>
    simp only [hostCall, hostFileByte] at h
    split at h
    · cases h
    · cases h; exact .same (by simp) (by simp)

/-- What a move does to a block. -/
theorem takeTurn_port (p : Port) {x : Turn} {s t : State} (h : takeTurn x s = .next t) : PortStep p s t := by
  cases x with
  | offer q w => cases h; exact .same (by simp [offerWord]) (by simp [offerWord])
  | block q =>
    simp only [takeTurn, blockTurn] at h
    split at h
    · cases h; exact .same rfl rfl
    · split at h
      · next room =>
        left
        simpa using portPath_accept (q := p) (s := s.setSource q _) (by simpa using room) h
      · cases h; exact .same rfl rfl
  | sink q => cases h; left; exact portPath_takeHead q p s
  | reset q => cases h; exact portStep_reset q p (.refl _ _) (.inr rfl)
  | edge q pins =>
    simp only [takeTurn, edgeTurn] at h
    split at h
    · cases h; exact portStep_reset q p (.refl _ _) (.inr rfl)
    · split at h
      · next ha =>
        left
        exact (edgeSettles_path q p pins s).trans
          (portPath_accept (edgeSettles_room (edgeAccepts_room ha)) h)
      · cases h; left; exact edgeSettles_path q p pins s
  | forward =>
    cases h
    simp only [forwardTurn]
    split
    · exact .same rfl rfl
    · left; simpa [offerWord] using portPath_takeHead .encoder p s
  | contend q w v => cases h
  | host c => exact hostCall_port p h

/-- Everything a step can do to a block and its sink. -/
theorem step_port (p : Port) {s t : State} (h : step s = .next t) : PortStep p s t := by
  rcases step_turn h with ⟨-, rfl⟩ | ⟨x, xs, -, hx⟩
  · exact .same rfl rfl
  · have := takeTurn_port p hx
    unfold PortStep at this ⊢
    simpa using this

end Sys2Proof.Machine
end

