-- ==== Sys2Proof/Laws/Image.lean ====
section
/-! SUPPORT. The file memory: a read after a write gives the byte written and every other offset reads as before; every operation
keeps the canonical form; reading out what was put in. -/

namespace Sys2Proof.Machine

theorem cellsOk_cons {low high k : Nat} {v : Byte} {rest : List Host.Cell} :
    cellsOk low high ((k, v) :: rest) = true ↔
      low ≤ k ∧ k < high ∧ v ≠ unlisted ∧ cellsOk (k + 1) high rest = true := by
  simp [cellsOk, and_assoc]

/-- A bound below may be lowered. -/
theorem cellsOk_mono {low low' high : Nat} {cells : List Host.Cell} (h : cellsOk low high cells = true)
    (hl : low' ≤ low) : cellsOk low' high cells = true := by
  cases cells with
  | nil => rfl
  | cons c rest =>
    obtain ⟨k, v⟩ := c
    rw [cellsOk_cons] at h ⊢
    exact ⟨by omega, h.2⟩

/-- Below its first offset a list of cells lists nothing. -/
theorem lookupCell_below {low high a : Nat} {cells : List Host.Cell} (h : cellsOk low high cells = true)
    (ha : a < low) : lookupCell cells a = unlisted := by
  induction cells generalizing low with
  | nil => rfl
  | cons c rest ih =>
    obtain ⟨k, v⟩ := c
    rw [cellsOk_cons] at h
    simp only [lookupCell]
    rw [if_neg (by omega)]
    exact ih h.2.2.2 (by omega)

/-- Writing one cell keeps the canonical form. -/
theorem putCell_ok {low high a : Nat} {b : Byte} {cells : List Host.Cell} (h : cellsOk low high cells = true)
    (h₀ : low ≤ a) (h₁ : a < high) : cellsOk low high (putCell a b cells) = true := by
  induction cells generalizing low with
  | nil =>
    unfold putCell
    split
    · rfl
    · rw [cellsOk_cons]; exact ⟨h₀, h₁, by assumption, rfl⟩
  | cons c rest ih =>
    obtain ⟨k, v⟩ := c
    have h' := cellsOk_cons.mp h
    unfold putCell
    split
    · split
      · exact h
      · rw [cellsOk_cons]
        exact ⟨h₀, h₁, by assumption, cellsOk_cons.mpr ⟨by omega, h'.2.1, h'.2.2.1, h'.2.2.2⟩⟩
    · split
      · next e =>
        subst e
        split
        · exact cellsOk_mono h'.2.2.2 (by omega)
        · rw [cellsOk_cons]; exact ⟨h₀, h₁, by assumption, h'.2.2.2⟩
      · rw [cellsOk_cons]
        exact ⟨h'.1, h'.2.1, h'.2.2.1, ih h'.2.2.2 (by omega)⟩

/-- A read after a write: the byte written, and elsewhere what was there. -/
theorem lookupCell_putCell {low high a a' : Nat} {b : Byte} {cells : List Host.Cell}
    (h : cellsOk low high cells = true) :
    lookupCell (putCell a b cells) a' = if a' = a then b else lookupCell cells a' := by
  induction cells generalizing low with
  | nil =>
    unfold putCell
    split
    · next e => subst e; by_cases h : a' = a <;> simp [lookupCell, h]
    · by_cases h : a' = a
      · simp [lookupCell, h]
      · have : ¬ a = a' := fun e => h e.symm
        simp [lookupCell, h, this]
  | cons c rest ih =>
    obtain ⟨k, v⟩ := c
    have h' := cellsOk_cons.mp h
    unfold putCell
    split
    · next hlt =>
      split
      · next e =>
        subst e
        by_cases ha : a' = a
        · subst ha
          rw [if_pos rfl]
          exact lookupCell_below (cellsOk_cons.mpr ⟨Nat.le_refl k, h'.2⟩) hlt
        · rw [if_neg ha]
      · by_cases ha : a' = a
        · simp [lookupCell, ha]
        · have : ¬ a = a' := fun e => ha e.symm
          simp [lookupCell, ha, this]
    · split
      · next _ e =>
        subst e
        split
        · next e =>
          subst e
          by_cases ha : a' = a
          · subst ha
            rw [if_pos rfl]
            exact lookupCell_below h'.2.2.2 (by omega)
          · have : ¬ a = a' := fun e => ha e.symm
            simp [lookupCell, ha, this]
        · by_cases ha : a' = a
          · simp [lookupCell, ha]
          · have : ¬ a = a' := fun e => ha e.symm
            simp [lookupCell, ha, this]
      · next hlt hne =>
        simp only [lookupCell, ih h'.2.2.2]
        by_cases ha : a' = a
        · subst ha
          rw [if_neg (by omega), if_pos rfl, if_pos rfl]
        · rw [if_neg ha, if_neg ha]

/-- Writing a run of bytes keeps the canonical form. -/
theorem putCells_ok {high a : Nat} {bs : List Byte} {cells : List Host.Cell}
    (h : cellsOk 0 high cells = true) (hb : a + bs.length ≤ high) : cellsOk 0 high (putCells a bs cells) = true := by
  induction bs generalizing a cells with
  | nil => exact h
  | cons b bs ih =>
    simp only [List.length_cons] at hb
    exact ih (putCell_ok h (by omega) (by omega)) (by omega)

/-- A read after a run of writes. -/
theorem lookupCell_putCells {high a a' : Nat} {bs : List Byte} {cells : List Host.Cell}
    (h : cellsOk 0 high cells = true) (hb : a + bs.length ≤ high) :
    lookupCell (putCells a bs cells) a' =
      if a ≤ a' ∧ a' < a + bs.length then bs.getD (a' - a) 0 else lookupCell cells a' := by
  induction bs generalizing a cells with
  | nil => simp [putCells]
  | cons b bs ih =>
    simp only [List.length_cons] at hb
    simp only [putCells, List.length_cons]
    rw [ih (putCell_ok h (by omega) (by omega)) (by omega), lookupCell_putCell h]
    by_cases h₁ : a + 1 ≤ a' ∧ a' < a + 1 + bs.length
    · rw [if_pos h₁, if_pos (by omega)]
      have : a' - a = (a' - (a + 1)) + 1 := by omega
      rw [this]
      simp
    · rw [if_neg h₁]
      by_cases h₂ : a' = a
      · subst h₂; simp
      · rw [if_neg h₂, if_neg (by omega)]

/-! ### The operations on a memory -/

theorem Memory.blank_wf (n : Nat) : (Memory.blank n).wf = true := rfl

theorem Memory.ofBytes_wf (bs : List Byte) : (Memory.ofBytes bs).wf = true :=
  putCells_ok (a := 0) (cells := []) rfl (by simp [Memory.ofBytes])

/-- Everything a store does: it answers a memory exactly when the file has the offsets, and then that memory is in canonical form,
of the same length, and reads back the bytes stored and no others. -/
theorem Memory.store_spec {m : Memory} (h : m.wf = true) {off : Nat} {bs : List Byte}
    (hb : off + bs.length ≤ m.len) :
    ∃ m', m.store off bs = some m' ∧ m'.wf = true ∧ m'.len = m.len ∧
      ∀ a, lookupCell m'.cells a =
        if off ≤ a ∧ a < off + bs.length then bs.getD (a - off) 0 else lookupCell m.cells a :=
  ⟨_, if_pos hb, putCells_ok h hb, rfl, fun _ => lookupCell_putCells h hb⟩

theorem Memory.store_wf {m m' : Memory} {off : Nat} {bs : List Byte} (h : m.wf = true)
    (hs : m.store off bs = some m') : m'.wf = true ∧ m'.len = m.len := by
  unfold Memory.store at hs
  split at hs
  · next hb => cases hs; exact ⟨putCells_ok h hb, rfl⟩
  · cases hs

@[simp] theorem Memory.ofBytes_len (bs : List Byte) : (Memory.ofBytes bs).len = bs.length := rfl

theorem Memory.ofBytes_lookup (bs : List Byte) (a : Nat) :
    lookupCell (Memory.ofBytes bs).cells a = bs.getD a 0 := by
  show lookupCell (putCells 0 bs []) a = _
  rw [lookupCell_putCells (high := bs.length) rfl (by simp)]
  split
  · simp
  · next hn =>
    rw [List.getD_eq_default _ _ (by omega)]
    rfl

theorem readCells_length (cells : List Host.Cell) (off n : Nat) : (readCells cells off n).length = n := by
  induction n generalizing off with
  | zero => rfl
  | succ n ih => simp [readCells, ih]

theorem readCells_getElem? (cells : List Host.Cell) (off n k : Nat) (h : k < n) :
    (readCells cells off n)[k]? = some (lookupCell cells (off + k)) := by
  induction n generalizing off k with
  | zero => omega
  | succ n ih =>
    cases k with
    | zero => simp [readCells]
    | succ k =>
      simp only [readCells, List.getElem?_cons_succ]
      rw [ih _ _ (by omega)]
      congr 2
      omega

/-- Reading out bytes: what the cells give, offset by offset. -/
theorem readCells_eq {cells : List Host.Cell} {off : Nat} {bs : List Byte}
    (h : ∀ k x, bs[k]? = some x → lookupCell cells (off + k) = x) : readCells cells off bs.length = bs := by
  induction bs generalizing off with
  | nil => rfl
  | cons b bs ih =>
    simp only [List.length_cons, readCells]
    congr 1
    · simpa using h 0 b rfl
    · refine ih (fun k x hk => ?_)
      have := h (k + 1) x (by simpa using hk)
      rw [← this]
      congr 1
      omega

/-- A slice of the memory that holds given bytes is that slice of the bytes. -/
theorem Memory.ofBytes_slice (bs : List Byte) (off n : Nat) (h : off + n ≤ bs.length) :
    (Memory.ofBytes bs).slice off n = some ((bs.drop off).take n) := by
  unfold Memory.slice
  rw [if_pos (by simpa using h)]
  congr 1
  have hl : ((bs.drop off).take n).length = n := by simp; omega
  suffices e : readCells (Memory.ofBytes bs).cells off ((bs.drop off).take n).length = (bs.drop off).take n by
    rwa [hl] at e
  refine readCells_eq (fun k x hk => ?_)
  rw [Memory.ofBytes_lookup, List.getD_eq_getElem?_getD]
  rw [List.getElem?_take] at hk
  split at hk
  · rw [List.getElem?_drop] at hk
    rw [hk]
    rfl
  · cases hk

theorem Memory.ofBytes_bytes (bs : List Byte) : (Memory.ofBytes bs).bytes = bs :=
  readCells_eq (fun k x hk => by rw [Nat.zero_add, Memory.ofBytes_lookup, List.getD_eq_getElem?_getD, hk]; rfl)

/-! ### Little-endian fields (R34) -/

@[simp] theorem leBytes_length (k v : Nat) : (leBytes k v).length = k := by
  induction k generalizing v with
  | zero => rfl
  | succ k ih => simp [leBytes, ih]

theorem leValue_leBytes (k v : Nat) (h : v < 256 ^ k) : leValue (leBytes k v) = v := by
  induction k generalizing v with
  | zero => simp at h; subst h; rfl
  | succ k ih =>
    have : v / 256 < 256 ^ k := by rw [Nat.div_lt_iff_lt_mul (by omega)]; rwa [Nat.pow_succ] at h
    simp only [leBytes, leValue, ih _ this, BitVec.toNat_ofNat]
    omega

theorem leValue_lt (bs : List Byte) : leValue bs < 256 ^ bs.length := by
  induction bs with
  | nil => simp [leValue]
  | cons b bs ih =>
    have := b.isLt
    simp only [leValue, List.length_cons, Nat.pow_succ]
    omega

@[simp] theorem writeHeader_length (h : Header) : (writeHeader h).length = 14 := by
  simp [writeHeader, magic]

end Sys2Proof.Machine
end

