-- ==== Sys2Proof/Laws/Operands.lean ====
section
/-! SUPPORT. The pure functions: ranges, and what the one narrowing does. -/

namespace Sys2Proof.Machine

theorem unsigned_range (b : Byte) : 0 ≤ unsigned b ∧ unsigned b ≤ 255 := by
  have := b.isLt
  unfold unsigned
  omega

theorem toByte_toNat {v : Int} (h₀ : 0 ≤ v) (h₁ : v ≤ 255) : ((toByte v).toNat : Int) = v := by
  unfold toByte
  rw [BitVec.toNat_ofNat]
  omega

@[simp] theorem toByte_unsigned (b : Byte) : toByte (unsigned b) = b := by
  simp [toByte, unsigned]

theorem unsigned_toByte {v : Int} (h₀ : 0 ≤ v) (h₁ : v ≤ 255) : unsigned (toByte v) = v := toByte_toNat h₀ h₁

theorem s8_range (b : Byte) : -128 ≤ s8 b ∧ s8 b ≤ 127 := by
  have := b.isLt
  unfold s8 unsigned
  split <;> omega

theorem clampDelta_cases (v : Int) :
    (v < -128 ∧ clampDelta v = -128) ∨ (127 < v ∧ clampDelta v = 127) ∨ (-128 ≤ v ∧ v ≤ 127 ∧ clampDelta v = v) := by
  unfold clampDelta clamp Config.deltaMin Config.deltaMax
  split
  · omega
  · split <;> omega

theorem clampToUint8_cases (v : Int) :
    (v < 0 ∧ clampToUint8 v = 0) ∨ (255 < v ∧ clampToUint8 v = 255) ∨ (0 ≤ v ∧ v ≤ 255 ∧ clampToUint8 v = v) := by
  unfold clampToUint8 clamp Config.sampleMin Config.sampleMax
  split
  · omega
  · split <;> omega

theorem clampToUint8_range (v : Int) : 0 ≤ clampToUint8 v ∧ clampToUint8 v ≤ 255 := by
  rcases clampToUint8_cases v with h | h | h <;> omega

/-- The branches of ENC.NEXT are the clamp: "Equivalently `e = clampDelta(s - prev)`" (R72). -/
theorem emittedDelta_eq_clampDelta (prev s : Byte) : emittedDelta prev s = clampDelta (rawDelta prev s) := by
  unfold emittedDelta
  rcases clampDelta_cases (rawDelta prev s) with h | h | h
  · rw [if_neg (by omega), if_pos h.1, h.2]
  · rw [if_pos h.1, h.2]
  · rw [if_neg (by omega), if_neg (by omega), h.2.2]

/-- The branches of ENC.NEXT add the emitted delta: "`r = prev + e` in all three branches" (R72). -/
theorem reconstructed_eq_add (prev s : Byte) :
    reconstructed prev s = unsigned prev + clampDelta (rawDelta prev s) := by
  unfold reconstructed
  rcases clampDelta_cases (rawDelta prev s) with h | h | h
  · rw [if_neg (by omega), if_pos h.1, h.2]; omega
  · rw [if_pos h.1, h.2]
  · rw [if_neg (by omega), if_neg (by omega), h.2.2]; unfold rawDelta; omega

theorem nextRec_eq (prev s : Byte) : nextRec prev s = toByte (reconstructed prev s) := by
  rw [nextRec, reconstructed_eq_add]

/-- A sum in range passes the range test, and no other. -/
theorem sumOutOfRange_iff (v : Int) : sumOutOfRange v = true ↔ v < 0 ∨ v > 255 := by simp [sumOutOfRange]

end Sys2Proof.Machine
end

