-- ==== Sys2Proof/Laws/PerInstr.lean ====
section
/-! SUPPORT. The family `BeatFields` of statements about every operation as syntax: it is well formed, and the word that encodes it
has its marker in bit 8 and its operand in bits 7:0 (30_encoding.md R50, R53, R57). -/

/-- The encoded word of an operation: port, marker and operand stand where R50 and R53 put them. -/
def Sys2Proof.Laws.BeatFields.Statement (i : Sys2Proof.Instr) : Prop :=
  i.wf = true ∧ (Sys2Proof.encode i).1 = i.port ∧ (Sys2Proof.encode i).2.getLsbD 8 = i.isFirst ∧
    (Sys2Proof.encode i).2.setWidth 8 = i.byte

theorem Sys2Proof.Laws.BeatFields.encFirst (b : Sys2Proof.Byte) :
    Sys2Proof.Laws.BeatFields.Statement (.encFirst b) := by
  refine ⟨rfl, rfl, ?_, ?_⟩ <;> revert b <;> decide

theorem Sys2Proof.Laws.BeatFields.encNext (b : Sys2Proof.Byte) :
    Sys2Proof.Laws.BeatFields.Statement (.encNext b) := by
  refine ⟨rfl, rfl, ?_, ?_⟩ <;> revert b <;> decide

theorem Sys2Proof.Laws.BeatFields.decFirst (b : Sys2Proof.Byte) :
    Sys2Proof.Laws.BeatFields.Statement (.decFirst b) := by
  refine ⟨rfl, rfl, ?_, ?_⟩ <;> revert b <;> decide

theorem Sys2Proof.Laws.BeatFields.decNext (b : Sys2Proof.Byte) :
    Sys2Proof.Laws.BeatFields.Statement (.decNext b) := by
  refine ⟨rfl, rfl, ?_, ?_⟩ <;> revert b <;> decide
end

