-- ==== Sys2Proof/Laws/Stream.lean ====
section
/-! SUPPORT. A running block under NEXT operations follows the recurrences `encFrom`, `recFrom`, `decFrom` and `badFrom`, and these
recurrences position by position. -/

namespace Sys2Proof.Machine

/-! ### The functions -/

@[simp] theorem encFrom_length (prev : Byte) (s : List Byte) : (encFrom prev s).length = s.length := by
  induction s generalizing prev with
  | nil => rfl
  | cons x s ih => simp [encFrom, ih]

@[simp] theorem recFrom_length (prev : Byte) (s : List Byte) : (recFrom prev s).length = s.length := by
  induction s generalizing prev with
  | nil => rfl
  | cons x s ih => simp [recFrom, ih]

@[simp] theorem decFrom_length (prev : Byte) (s : List Byte) : (decFrom prev s).length = s.length := by
  induction s generalizing prev with
  | nil => rfl
  | cons x s ih => simp [decFrom, ih]

@[simp] theorem encStream_length (s : List Byte) : (encStream s).length = s.length := by
  cases s <;> simp [encStream]

@[simp] theorem recStream_length (s : List Byte) : (recStream s).length = s.length := by
  cases s <;> simp [recStream]

@[simp] theorem decStream_length (s : List Byte) : (decStream s).length = s.length := by
  cases s <;> simp [decStream]

/-- The recurrence of `rec` and `enc` (R73), position by position. -/
theorem encFrom_step (prev : Byte) (s : List Byte) (i : Nat) (x p : Byte) (hx : s[i]? = some x)
    (hp : (prev :: recFrom prev s)[i]? = some p) :
    (encFrom prev s)[i]? = some (tc8 (clampDelta (rawDelta p x))) ∧ (recFrom prev s)[i]? = some (nextRec p x) := by
  induction s generalizing prev i with
  | nil => simp at hx
  | cons y s ih =>
    cases i with
    | zero =>
      simp at hx hp
      subst hx hp
      simp [encFrom, recFrom]
    | succ i =>
      simp only [List.getElem?_cons_succ] at hx hp
      simpa [encFrom, recFrom] using ih (nextRec prev y) i hx (by simpa [recFrom] using hp)

/-- The recurrence of `dec` (R93), position by position. -/
theorem decFrom_step (prev : Byte) (s : List Byte) (i : Nat) (x p : Byte) (hx : s[i]? = some x)
    (hp : (prev :: decFrom prev s)[i]? = some p) : (decFrom prev s)[i]? = some (nextDec p x) := by
  induction s generalizing prev i with
  | nil => simp at hx
  | cons y s ih =>
    cases i with
    | zero =>
      simp at hx hp
      subst hx hp
      simp [decFrom]
    | succ i =>
      simp only [List.getElem?_cons_succ] at hx hp
      simpa [decFrom] using ih (nextDec prev y) i hx (by simpa [decFrom] using hp)

theorem recFrom_take (prev : Byte) (s : List Byte) (k : Nat) :
    recFrom prev (s.take k) = (recFrom prev s).take k := by
  induction s generalizing prev k with
  | nil => simp [recFrom]
  | cons y s ih => cases k <;> simp [recFrom, ih]

/-! ### The blocks -/

/-- ENC.NEXT operations on a running encoder: the deltas of `enc`, the predictor of `rec`, no change of `run` or `fault`. -/
theorem runEncoder (s : List Byte) (b : Block) (h : b.run = true) :
    (runBeats (s.map .encNext) b).map OutBeat.data = encFrom b.prev s ∧
      (∀ x ∈ runBeats (s.map .encNext) b, x.err = errOf b.fault) ∧
      (runBlock (s.map .encNext) b).prev = (recFrom b.prev s).getLastD b.prev ∧
      (runBlock (s.map .encNext) b).run = true ∧ (runBlock (s.map .encNext) b).fault = b.fault := by
  induction s generalizing b with
  | nil => simp [encFrom, recFrom, h]
  | cons x s ih =>
    have hr : (opBlock (.encNext x) b).run = true := by simp [opBlock_run, h]
    have hf : (opBlock (.encNext x) b).fault = b.fault := by simp [opBlock_fault, h, Instr.isFirst]
    have hp : (opBlock (.encNext x) b).prev = nextRec b.prev x := by simp [opBlock_prev, h, nextRec_eq]
    obtain ⟨h₁, h₂, h₃, h₄, h₅⟩ := ih (opBlock (.encNext x) b) hr
    rw [hp] at h₁ h₃
    rw [hf] at h₂ h₅
    refine ⟨?_, ?_, ?_, h₄, h₅⟩
    · simp [encFrom, h₁, newBeat, h, emittedDelta_eq_clampDelta]
    · intro y hy
      simp only [List.map_cons, runBeats_cons, List.mem_cons] at hy
      rcases hy with rfl | hy
      · simp [newBeat, hf]
      · exact h₂ y hy
    · simp only [List.map_cons, runBlock_cons, h₃, recFrom]
      rw [List.getLastD_cons]

/-- DEC.NEXT operations on a running decoder: the samples of `dec`; `INVALID_DATA` is added exactly if some sum is bad. -/
theorem runDecoder (s : List Byte) (b : Block) (h : b.run = true) :
    (runBeats (s.map .decNext) b).map OutBeat.data = decFrom b.prev s ∧
      (runBlock (s.map .decNext) b).prev = (decFrom b.prev s).getLastD b.prev ∧
      (runBlock (s.map .decNext) b).run = true ∧
      (runBlock (s.map .decNext) b).fault = if badFrom b.prev s then setFault .invalidData b.fault else b.fault := by
  induction s generalizing b with
  | nil => simp [decFrom, badFrom, h]
  | cons x s ih =>
    have hr : (opBlock (.decNext x) b).run = true := by simp [opBlock_run, h]
    have hf : (opBlock (.decNext x) b).fault =
        if sumOutOfRange (decodeSum b.prev x) then setFault .invalidData b.fault else b.fault := by
      simp [opBlock_fault, h, Instr.isFirst]
    have hp : (opBlock (.decNext x) b).prev = nextDec b.prev x := by simp [opBlock_prev, h, nextDec]
    obtain ⟨h₁, h₃, h₄, h₅⟩ := ih (opBlock (.decNext x) b) hr
    rw [hp] at h₁ h₃ h₅
    rw [hf] at h₅
    refine ⟨?_, ?_, h₄, ?_⟩
    · simp [decFrom, h₁, newBeat, h, nextDec]
    · simp only [List.map_cons, runBlock_cons, h₃, decFrom]
      rw [List.getLastD_cons]
    · simp only [List.map_cons, runBlock_cons, h₅, badFrom, Bool.or_eq_true]
      by_cases h₆ : sumOutOfRange (decodeSum b.prev x) = true <;>
        by_cases h₇ : badFrom (nextDec b.prev x) s = true <;>
        simp [h₆, h₇, setFault, BitVec.or_assoc]

/-- The beats of DEC.NEXT operations on a running, unfaulted decoder are flagged from the first bad sum on. -/
theorem runDecoder_err (s : List Byte) (b : Block) (h : b.run = true) (k : Nat) (x : OutBeat)
    (hx : (runBeats (s.map .decNext) b)[k]? = some x) :
    x.err = (errOf b.fault || badFrom b.prev (s.take (k + 1))) := by
  induction s generalizing b k with
  | nil => simp at hx
  | cons y s ih =>
    have hr : (opBlock (.decNext y) b).run = true := by simp [opBlock_run, h]
    have hf : (opBlock (.decNext y) b).fault =
        if sumOutOfRange (decodeSum b.prev y) then setFault .invalidData b.fault else b.fault := by
      simp [opBlock_fault, h, Instr.isFirst]
    have hp : (opBlock (.decNext y) b).prev = nextDec b.prev y := by simp [opBlock_prev, h, nextDec]
    have he : errOf (opBlock (.decNext y) b).fault = (errOf b.fault || sumOutOfRange (decodeSum b.prev y)) := by
      rw [hf]
      by_cases hs : sumOutOfRange (decodeSum b.prev y) = true <;> simp [hs]
    cases k with
    | zero =>
      simp at hx
      subst hx
      simp [newBeat, he, badFrom]
    | succ k =>
      simp only [List.map_cons, runBeats_cons, List.getElem?_cons_succ] at hx
      rw [ih _ hr k hx, he, hp]
      simp [badFrom, Bool.or_assoc]

/-- The beat of a FIRST on either port, and the block after it. -/
theorem opBlock_first (p : Port) (x : Byte) (b : Block) :
    opBlock (decodeBeat p { first := true, data := x }) b = Block.startStream x b ∧
      newBeat (decodeBeat p { first := true, data := x }) b = { first := true, err := errOf b.fault, data := x } := by
  cases p <;> exact ⟨rfl, rfl⟩

end Sys2Proof.Machine
end

