-- ==== Sys2Proof/Tests/Slice0.lean ====
section
/-! SUPPORT. Tests, with expected values from spec/95_test_vectors.md (the vector's id stands in each comment), the smoke tests of
WellFormed, and for every statement with hypotheses a witness that meets them. -/

namespace Sys2Proof.Tests

open Sys2Proof.Machine

/-! ### Helpers -/

/-- The state an outcome answers; the reset state for a stop (each use below also shows something that the reset state is not). -/
def after (o : Host.Outcome State Fault Refusal) : State :=
  match o with
  | .next s => s
  | .fault _ => State.reset
  | .refused _ => State.reset

/-- Whether an outcome is a next state. -/
def isNext (o : Host.Outcome State Fault Refusal) : Bool :=
  match o with
  | .next _ => true
  | .fault _ => false
  | .refused _ => false

/-- A block with this predictor in a started stream, or with these fields. -/
def blockAt (prev : Byte) (run : Bool) (fault : FaultBits) : Block :=
  { prev := prev, run := run, fault := fault, outq := [], draws := 0 }

/-- Reset but for one block. -/
def withEnc (b : Block) : State := { State.reset with enc := b }

/-- Reset but for one block. -/
def withDec (b : Block) : State := { State.reset with dec := b }

/-- Reset with moves to come. -/
def withTurns (ts : List Turn) : State := { State.reset with turns := ts }

/-- A two-channel Encoder as after vector LC1 up to `finish`. -/
def lc1 (life : Lifecycle) : HostEncoder :=
  { channelCount := 2, sampleRate := 8000
    queues := [[[10, 140], [5]], [[0, 0], [0]]], totalSamples := 3, life := life }

/-- Reset with a host Encoder. -/
def withEncoder (e : HostEncoder) : State := State.reset.setEncoder e

/-- The file of program P5. -/
def p5File : List Byte :=
  [0x61, 0x73, 0x69, 0x66, 0x40, 0x1F, 0, 0, 2, 0, 3, 0, 0, 0, 0x0A, 0x7F, 0x80, 0, 0, 0]

/-- What the reader hands on of the file of P5. -/
def p5Parsed : Parsed := { header := ⟨8000, 2, 3⟩, payload := [0x0A, 0x7F, 0x80, 0, 0, 0] }

/-- What the reader hands on of a file of one channel with this payload. -/
def oneChannel (payload : List Byte) : Parsed :=
  { header := ⟨8000, 1, BitVec.ofNat 32 payload.length⟩, payload := payload }

/-- Reset with this payload read from a file of one channel. -/
def withParsed (payload : List Byte) : State :=
  { State.reset with host := { HostState.reset with parsed := some (oneChannel payload) } }

/-! ### WellFormed: one ill-formed term for each check -/

theorem test_in9Wf_refuses : in9Wf 512 = false ∧ in9Wf 511 = true := by decide

theorem test_traceLineWf_refuses_byte : TraceLine.wf { mnemonic := .encNext, operand := .byte 256 } = false := by decide

theorem test_traceLineWf_refuses_delta :
    TraceLine.wf { mnemonic := .decNext, operand := .delta 128 } = false ∧
      TraceLine.wf { mnemonic := .encNext, operand := .delta 1 } = false := by decide

theorem test_pseudoOpWf_refuses_empty :
    PseudoOp.wf (.encStream []) = false ∧ PseudoOp.wf (.decStream []) = false ∧
      PseudoOp.wf (.encPacket [[1], []]) = false ∧ PseudoOp.wf (.decPacket [[]]) = false := by decide

theorem test_frameWf_refuses :
    Frame.wf 2 ⟨1, [[1]]⟩ = false ∧ Frame.wf 2 ⟨0, [[], []]⟩ = false ∧ Frame.wf 2 ⟨1, [[1], [1, 2]]⟩ = false ∧
      Frame.wf 2 ⟨1, [[1], [2]]⟩ = true := by decide

theorem test_memoryWf_refuses :
    Memory.wf ⟨2, [(1, 5), (0, 5)]⟩ = false ∧ Memory.wf ⟨2, [(0, 0)]⟩ = false ∧ Memory.wf ⟨2, [(2, 5)]⟩ = false := by
  decide

/-! ### Decoding: words written out from R50 (bit 8 the marker, bits 7:0 the byte) -/

/-- EF2, V2: 1 1111 1111 and 1 1100 1000 on the encoder. -/
theorem test_decode_encFirst :
    decode .encoder 0b111111111#9 = .encFirst 255 ∧ decode .encoder 0b111001000#9 = .encFirst 200 := by decide

/-- EN11: 0 1000 1100 on the encoder. -/
theorem test_decode_encNext : decode .encoder 0b010001100#9 = .encNext 140 := by decide

/-- DF2: 1 1000 0000 on the decoder. -/
theorem test_decode_decFirst : decode .decoder 0b110000000#9 = .decFirst 128 := by decide

/-- DN4: 0 1000 0000 on the decoder. -/
theorem test_decode_decNext : decode .decoder 0b010000000#9 = .decNext 0x80 := by decide

/-- The tagged beat (notes/assumptions/8.md), and its rejections by name. -/
theorem test_decodeTableWord :
    decodeTableWord 9 0x1C8 = some (.encFirst 200) ∧ decodeTableWord 16 0x080 = some (.encNext 128) ∧
      decodeTableWord 16 0x380 = some (.decFirst 128) ∧ decodeTableWord 16 0x27F = some (.decNext 127) ∧
      decodeTableWord 16 0x400 = none := by decide

theorem test_decodeBytes_rejects :
    decodeBytes [] = .rejected .noBytes ∧ decodeBytes [1] = .rejected .halfBeat ∧
      decodeBytes [0, 4, 9] = .rejected .bitsAboveBeat ∧ decodeBytes [0x80, 1, 9] = .instr (.encFirst 128) [9] := by
  decide

/-! ### The operations -/

/-- EF5: a sticky fault is not cleared and shows as `err`. -/
theorem test_encFirst_EF5 :
    (after (exec (.encFirst 9) (withEnc (blockAt 0 false 0b01)))).enc.beats.map OutBeat.word = [0x309#10] ∧
      (after (exec (.encFirst 9) (withEnc (blockAt 0 false 0b01)))).enc.status = 0b011#3 := by decide

/-- EN11 and EN12: the source's clamps, up and down. -/
theorem test_encNext_EN11_EN12 :
    (after (exec (.encNext 140) (withEnc (blockAt 10 true 0)))).enc.beats.map OutBeat.word = [0x07F#10] ∧
      (after (exec (.encNext 140) (withEnc (blockAt 10 true 0)))).enc.prev = 137 ∧
      (after (exec (.encNext 5) (withEnc (blockAt 137 true 0)))).enc.beats.map OutBeat.word = [0x080#10] ∧
      (after (exec (.encNext 5) (withEnc (blockAt 137 true 0)))).enc.prev = 9 := by decide

/-- EN5 to EN8: the thresholds. -/
theorem test_encNext_thresholds :
    (after (exec (.encNext 127) (withEnc (blockAt 0 true 0)))).enc.prev = 127 ∧
      (after (exec (.encNext 128) (withEnc (blockAt 0 true 0)))).enc.prev = 127 ∧
      (after (exec (.encNext 0) (withEnc (blockAt 128 true 0)))).enc.prev = 0 ∧
      (after (exec (.encNext 0) (withEnc (blockAt 129 true 0)))).enc.prev = 1 := by decide

/-- DF5: an earlier `INVALID_DATA` is not cleared. -/
theorem test_decFirst_DF5 :
    (after (exec (.decFirst 100) (withDec (blockAt 0 true 0b10)))).dec.beats.map OutBeat.word = [0x364#10] ∧
      (after (exec (.decFirst 100) (withDec (blockAt 0 true 0b10)))).dec.status = 0b101#3 := by decide

/-- DN5 to DN8: the ends of the range. -/
theorem test_decNext_ends :
    (after (exec (.decNext 0x7F) (withDec (blockAt 128 true 0)))).dec.beats.map OutBeat.word = [0x0FF#10] ∧
      (after (exec (.decNext 0x80) (withDec (blockAt 128 true 0)))).dec.beats.map OutBeat.word = [0x000#10] ∧
      (after (exec (.decNext 0x7F) (withDec (blockAt 129 true 0)))).dec.beats.map OutBeat.word = [0x2FF#10] ∧
      (after (exec (.decNext 0x80) (withDec (blockAt 127 true 0)))).dec.beats.map OutBeat.word = [0x200#10] := by decide

/-- FX5: a NEXT at the decoder after reset is `PROTO` and not `INVALID_DATA`; its `data` is not compared. -/
theorem test_decNext_FX5 :
    (after (exec (.decNext 5) State.reset)).dec.status = 0b010#3 ∧
      (after (exec (.decNext 5) State.reset)).dec.beats.map (fun x => (x.first, x.err)) = [(false, true)] := by decide

/-- FX1: the same at the encoder (P4, line 1). -/
theorem test_encNext_FX1 :
    (after (exec (.encNext 5) State.reset)).enc.status = 0b010#3 ∧
      (after (exec (.encNext 5) State.reset)).enc.beats.map (fun x => (x.first, x.err)) = [(false, true)] := by decide

/-- FX7: `RESET` clears the faults and drops pending beats. -/
theorem test_reset_FX7 :
    (after (exec (.decFirst 1) (withDec (blockAt 255 true 0b11)))).dec.outq.length = 1 ∧
      ((after (exec (.decFirst 1) (withDec (blockAt 255 true 0b11)))).resetPort .decoder).dec.status = 0b000#3 ∧
      ((after (exec (.decFirst 1) (withDec (blockAt 255 true 0b11)))).resetPort .decoder).dec.outq = [] := by decide

/-! ### Whole streams -/

/-- ES12 and ES16. -/
theorem test_encStream :
    encStream [0, 255, 255, 255, 0, 0] = [0x00, 0x7F, 0x7F, 0x01, 0x80, 0x81] ∧
      recStream [0, 255, 255, 255, 0, 0] = [0, 127, 254, 255, 127, 0] ∧
      encStream [200, 72, 71, 199, 200] = [0xC8, 0x80, 0xFF, 0x7F, 0x02] := by decide

/-- DS13 and DS6. -/
theorem test_decStream :
    decStream [0xFA, 0x0A, 0xFB, 0x80, 0x80] = [250, 255, 250, 122, 0] ∧
      badStream [0xFA, 0x0A, 0xFB, 0x80, 0x80] = true ∧ badStream [0x00, 0x7F, 0x7F, 0x01, 0x80, 0x81] = false := by
  decide

/-! ### The agents and the ports -/

/-- The step after placing a word runs it as the first operation after reset, on either port. -/
theorem test_step_runs_placed_word :
    (after (step (State.reset.withFetchWord 9 0x1C8))).enc = (after (exec (.encFirst 200) State.reset)).enc ∧
      (after (step (State.reset.withFetchWord 16 0x3C8))).dec = (after (exec (.decFirst 200) State.reset)).dec := by
  decide

/-- R60: one edge accepts the beat on the pins. -/
theorem test_edge_accepts :
    (after (step (withTurns [.edge .encoder ⟨false, true, true, 200, false⟩]))).enc.prev = 200 := by decide

/-- R170: with `rst = 1` it does not. -/
theorem test_edge_reset :
    (after (step (withTurns [.edge .encoder ⟨true, true, true, 200, true⟩]))).enc.run = false ∧
      isNext (step (withTurns [.edge .encoder ⟨true, true, true, 200, true⟩])) = true := by decide

/-! ### The host -/

/-- P5: the packet of the source's two channels, byte for byte. -/
theorem test_buildPacket_P5 :
    (after (hostCall .buildPacket (withEncoder (lc1 .finalized)))).host.packet.map Memory.bytes = some p5File := by
  decide

/-- P5: reading it back and decoding it. -/
theorem test_decode_P5 :
    (after (hostCall .decode (after (hostCall .read (after (hostCall (.load p5File) State.reset)))))).host.replies =
      [.header p5Parsed, .samples { sampleRate := 8000, channels := [[10, 137, 9], [0, 0, 0]] }] := by decide

/-- PQ11: a bad sum in channel 0 discards every sample. -/
theorem test_decode_PQ11 :
    (after (hostCall .decode (withParsed [0xC8, 0x7F, 0]))).host.replies = [.failed .invalidData] := by decide

/-- PQ2, PQ3, PQ5, PQ6, PQ7, PQ10: what the reader refuses, and trailing bytes. -/
theorem test_read :
    readFile (Memory.ofBytes (p5File.take 19)) = none ∧
      readFile (Memory.ofBytes (p5File ++ [0xEE, 0xEE])) = some p5Parsed ∧
      readFile (Memory.ofBytes ([0x41, 0x53, 0x49, 0x46] ++ p5File.drop 4)) = none ∧
      readFile (Memory.ofBytes [0x61, 0x73, 0x69, 0x66, 0x40, 0x1F, 0, 0, 0, 0, 3, 0, 0, 0]) = none ∧
      readFile (Memory.ofBytes [0x61, 0x73, 0x69, 0x66, 0x40, 0x1F, 0, 0, 2, 0, 0, 0, 0, 0]) = none ∧
      readFile (Memory.ofBytes [0x61, 0x73, 0x69, 0x66, 0x40, 0x1F, 0, 0, 0, 1, 0, 0, 0, 1]) = none := by decide

/-- HD4: the byte order of every field. -/
theorem test_writeHeader_HD4 :
    writeHeader ⟨0x12345678, 0x0102, 0x0A0B0C0D⟩ =
      [0x61, 0x73, 0x69, 0x66, 0x78, 0x56, 0x34, 0x12, 0x02, 0x01, 0x0D, 0x0C, 0x0B, 0x0A] := by decide

/-- LC1: two pushes make the queues, and `finish` finalizes. -/
theorem test_push_LC1 :
    (after (hostCall (.push (some ⟨1, [[5], [0]]⟩)) (after (hostCall (.push (some ⟨2, [[10, 140], [0, 0]]⟩))
      (after (hostCall (.create 8000 2) State.reset)))))).host.encoder = some (lc1 .opened) := by decide

/-- LC2, LC5, LC6, LC7, LC8, LC9, LC11. -/
theorem test_lifecycle_errors :
    (after (hostCall .buildPacket (withEncoder (lc1 .consumed)))).host.replies = [.failed .alreadyProduced] ∧
      (after (hostCall .buildPacket (withEncoder (HostEncoder.create 8000 2)))).host.replies =
        [.failed .invalidArgument] ∧
      (after (hostCall .buildPacket (withEncoder (lc1 .opened)))).host.replies = [.failed .invalidState] ∧
      (after (hostCall .finish (withEncoder (lc1 .finalized)))).host.replies = [.failed .streamClosed] ∧
      (after (hostCall (.push (some ⟨1, [[1]]⟩)) (withEncoder (lc1 .opened)))).host.replies =
        [.failed .invalidArgument] ∧
      (after (hostCall (.push (some ⟨0, [[], []]⟩)) (withEncoder (lc1 .opened)))).host.replies =
        [.failed .invalidArgument] ∧
      (after (hostCall (.push (some ⟨1, [[1]]⟩)) (withEncoder (lc1 .finalized)))).host.replies =
        [.failed .streamClosed] := by decide

/-! ### The trace notation -/

/-- R61: `DEC.NEXT -128 ; low` is the beat 0x080, and `ENC.FIRST 0xC8` the beat 0x1C8. -/
theorem test_readLine :
    (readLine ['D', 'E', 'C', '.', 'N', 'E', 'X', 'T', ' ', '-', '1', '2', '8', ' ', ';', ' ', 'l']).bind lineOp =
        some (.decNext 0x80) ∧
      (readLine ['E', 'N', 'C', '.', 'F', 'I', 'R', 'S', 'T', ' ', '0', 'x', 'C', '8']).bind lineOp =
        some (.encFirst 200) ∧
      readLine ['E', 'N', 'C', '.', 'N', 'E', 'X', 'T', ' ', '2', '5', '6'] = none := by decide

/-- R61: the written form of FX3's beat, `-> (1, 1, 9)`, and its number 0x309. -/
theorem test_outText :
    outText ⟨true, true, 9⟩ = ['-', '>', ' ', '(', '1', ',', ' ', '1', ',', ' ', '9', ')'] ∧
      outNumber ⟨true, true, 9⟩ = 0x309 := by decide

/-- The moves of the trace `ENC.FIRST 200`, as a machine's. -/
def traced : State := withTurns (traceTurns (.op (.encFirst 200)))

/-- R181: a run is not over before its word is offered, nor before its beat is taken; the other block's run has no word. -/
theorem test_goodEnd :
    traced.ended .encoder = false ∧ (after (step (after (step traced)))).ended .encoder = false ∧
      (after (step (after (step (after (step traced)))))).goodEnd .encoder = true ∧ traced.ended .decoder = true := by decide

/-! ### Witnesses: states and operands that meet the hypotheses of the statements, clause by clause -/

/-- A queue entry of age `a`. -/
def entry (a : Nat) : QEntry := { beat := { first := true, err := false, data := 7 }, age := a }

/-- An encoder block with this queue. -/
def withQueue (q : List QEntry) (ts : List Turn) : State :=
  { State.reset with enc := { blockAt 7 true 0 with outq := q }, turns := ts }

/-- The moves and words of the loopback of a stream. -/
def loopState (s : List Byte) : State :=
  withTurns ((streamWords s).flatMap (fun w =>
    [.offer .encoder w, .block .encoder, .forward, .block .decoder, .sink .decoder]))

theorem witness_EncNextEmitsTheSaturatedDelta :
    (withEnc (blockAt 0 false 0)).enc.run = false ∧ (withEnc (blockAt 0 true 0)).enc.run = true ∧
      rawDelta 0 128 = 128 ∧ rawDelta 129 0 = -129 ∧ rawDelta 0 127 = 127 := by decide

theorem witness_DecNextEmitsTheSaturatedSum :
    (withDec (blockAt 0 false 0)).dec.run = false ∧ (withDec (blockAt 0 true 0)).dec.run = true ∧
      decodeSum 127 0x80 = -1 ∧ decodeSum 129 0x7F = 256 ∧ decodeSum 128 0x7F = 255 := by decide

theorem witness_PureFunctionsMatchTheirDefinitions :
    clamp (-128) 127 (-129) = -128 ∧ clamp (-128) 127 128 = 127 ∧ clamp (-128) 127 127 = 127 ∧
      tc8 (-128) = 0x80 ∧ tc8 (-1) = 0xFF ∧ tc8 0 = 0 ∧ tc8 127 = 0x7F ∧ s8 0x7F = 127 ∧ s8 0x80 = -128 := by decide

theorem witness_DeltaBytesAreTwosComplement : (-128 : Int) ≤ -27 ∧ (-27 : Int) ≤ 127 ∧ tc8 (-27) = 0xE5 := by decide

theorem witness_OperationFrame_first :
    isNext (exec (.decFirst 1) (withDec (blockAt 0 true 0))) = true ∧ (Instr.decFirst 1).isFirst = true := by decide

theorem witness_OperationFrame_next :
    isNext (exec (.encNext 1) (withEnc (blockAt 0 true 0))) = true ∧ (Instr.encNext 1).isFirst = false ∧
      ((withEnc (blockAt 0 true 0)).block (Instr.encNext 1).port).run = true ∧
      (State.reset.block (Instr.encNext 1).port).run = false := by decide

theorem witness_ReconstructedValueStaysInRange :
    rawDelta 0 128 > 127 ∧ rawDelta 129 0 < -128 ∧ -128 ≤ rawDelta 128 0 ∧ rawDelta 128 0 ≤ 127 := by decide

theorem witness_SmallDifferences (i : Nat) (x y : Byte) (_hx : ([200] : List Byte)[i]? = some x)
    (hy : ([200] : List Byte)[i + 1]? = some y) : -128 ≤ (y.toNat : Int) - x.toNat ∧ (y.toNat : Int) - x.toNat ≤ 127 := by
  simp at hy

theorem witness_SmallDifferences_two (i : Nat) (x y : Byte) (hx : ([0, 127] : List Byte)[i]? = some x)
    (hy : ([0, 127] : List Byte)[i + 1]? = some y) :
    -128 ≤ (y.toNat : Int) - x.toNat ∧ (y.toNat : Int) - x.toNat ≤ 127 := by
  cases i with
  | zero => simp at hx hy; subst hx hy; decide
  | succ i => simp at hy

theorem witness_ConstantInputIsReachedInThreeSteps :
    rawDelta 0 128 > 127 ∧ rawDelta 129 0 < -128 ∧ rawDelta 0 254 ≠ 255 ∧ rawDelta 0 255 = 255 := by decide

theorem witness_EncoderStreamEmitsEncodedChannel :
    ([10, 140, 5] : List Byte) ≠ [] ∧ (withEnc (blockAt 9 true 0)).enc.fault = 0 ∧
      recStream [10, 140, 5] = [10, 137, 9] := by decide

theorem witness_DecoderStreamEmitsReconstruction :
    ([0xC8, 0x7F] : List Byte) ≠ [] ∧ State.reset.dec.fault = 0 ∧ badStream [0xC8, 0x7F] = true ∧
      badStream [0xC8, 0x80] = false := by decide

theorem witness_ReencodingAConformantStreamIsIdentity :
    ([0x0A, 0x7F, 0x80] : List Byte) ≠ [] ∧ badStream [0x0A, 0x7F, 0x80] = false ∧
      decStream [0x0A, 0x7F, 0x80] = [10, 137, 9] ∧ s8 0x80 = 9 - 137 ∧ smooth [0, 127, 254, 126] = true ∧
      smooth [0, 128] = false := by decide

theorem witness_LoopbackDeliversTheReconstructedStream :
    (withQueue [entry 0] []).enc.outq = [entry 0] ∧ (loopState [10, 140, 5]).enc.fault = 0 ∧ (loopState [10, 140, 5]).dec.fault = 0 ∧
      (loopState [10, 140, 5]).enc.outq = [] ∧ (loopState [10, 140, 5]).dec.outq = [] ∧
      (loopState [10, 140, 5]).encSource = [] ∧ (loopState [10, 140, 5]).decSource = [] ∧
      (loopState [10, 140, 5]).turns.length = 15 := by decide

theorem witness_ProtoIsRaisedExactlyByNextBeforeFirst :
    (Instr.decNext 5).isFirst = false ∧ (State.reset.block (Instr.decNext 5).port).run = false ∧
      isNext (exec (.decNext 5) State.reset) = true := by decide

theorem witness_InvalidDataIsRaisedExactlyByABadSum :
    (withDec (blockAt 200 true 0)).dec.run = true ∧ isNext (exec (.decNext 0x7F) (withDec (blockAt 200 true 0))) = true ∧
      ((200#8).toNat : Int) + s8 0x7F > 255 ∧ ((0#8).toNat : Int) + s8 0xFF < 0 := by decide

theorem witness_AnOperationRaisesAtMostOneFault :
    isNext (exec (.encNext 5) State.reset) = true ∧ (State.reset.block (Instr.encNext 5).port).run = false := by decide

theorem witness_ErrIsStickyFromTheFirstFault :
    isNext (execAll [.decNext 5, .decFirst 1] State.reset) = true ∧
      isNext (execAll [.decNext 5] (withDec (blockAt 0 true 0b10))) = true ∧
      (withDec (blockAt 0 true 0b10)).dec.fault.getLsbD 1 = true ∧
      (after (execAll [.decFirst 1] State.reset)).dec.fault = 0 := by decide

theorem witness_OnlyResetClearsAFault :
    isNext (step { withEnc (blockAt 0 true 0b01) with turns := [.reset .encoder] }) = true ∧
      (withEnc (blockAt 0 true 0b01)).enc.fault.getLsbD 0 = true ∧
      (after (step { withEnc (blockAt 0 true 0b01) with turns := [.reset .encoder] })).enc.fault.getLsbD 0 = false := by
  decide

theorem witness_RunIsWrittenByFirstAndResetOnly :
    isNext (step (State.reset.withFetchWord 16 0x101)) = true ∧
      (after (step (State.reset.withFetchWord 16 0x101))).enc.run ≠ (State.reset.withFetchWord 16 0x101).enc.run ∧
      isNext (exec (.encFirst 1) State.reset) = true := by decide

theorem witness_PredictorIsNotReadBeforeFirst :
    (State.reset.block .encoder).run = false ∧ isNext (execAll [.encNext 5, .encFirst 9, .encNext 10] State.reset) = true ∧
      (after (execAll [.encNext 5, .encFirst 9] State.reset)).enc.run = true := by decide

theorem witness_FirstErasesThePast :
    (Instr.decFirst 1).port = .decoder ∧ (Instr.decFirst 1).isFirst = true ∧
      ([.decNext 1, .decFirst 2] : List Instr).all (fun j => j.port = .decoder) = true := by decide

theorem witness_ResetEdgeOverridesEverything : (⟨true, true, true, 9, true⟩ : PinsIn).rst = true := rfl

theorem witness_EdgeFollowsTheHandshake :
    (⟨false, true, true, 9, true⟩ : PinsIn).rst = false ∧ (outPins .encoder false State.reset.enc).inReady = true := by
  decide

theorem witness_EdgeFollowsTheHandshake_taken :
    (outPins .encoder false (withQueue [entry Config.lat] []).enc).outValid = true := by
  simp [outPins, Block.outValid, withQueue, entry]

theorem witness_OfferedBeatIsHeldStable :
    (outPins .encoder false (withQueue [entry Config.lat] []).enc).outValid = true ∧
      isNext (edgeTurn .encoder ⟨false, false, true, 9, false⟩ (withQueue [entry Config.lat] [])) = true := by
  constructor
  · simp [outPins, Block.outValid, withQueue, entry]
  · simp [edgeTurn, edgeAccepts, isNext]

theorem witness_FullQueueHoldsTheInput :
    (withQueue (List.replicate Config.qdepth (entry 0)) [.block .encoder]).turns = [.block .encoder] ∧
      ((withQueue (List.replicate Config.qdepth (entry 0)) [.block .encoder]).block .encoder).outq.length =
        Config.qdepth := by
  simp [withQueue]

theorem witness_OutputDoesNotDependOnTheSchedule :
    (State.reset.withFetchWord 16 0x101).turns.all Turn.isBeatMove = true ∧
      (match Host.Core.run Sys2Proof.core 2 (State.reset.withFetchWord 16 0x101) with
        | .next _ => true
        | .fault _ => false
        | .refused _ => false) = true := by decide

theorem witness_NoBeatIsLostExceptByReset :
    isNext (step (withQueue [entry 0] [.sink .encoder])) = true ∧
      isNext (step (withQueue [entry 0] [.reset .encoder])) = true := by decide

theorem witness_StepExecutesTheOfferedWord :
    (State.reset.withFetchWord 16 0x3C8).turns = [.block .decoder] ∧
      (State.reset.withFetchWord 16 0x3C8).source .decoder = [0x1C8] ∧
      ((State.reset.withFetchWord 16 0x3C8).block .decoder).inReady = true := by decide

theorem witness_PlacedWordIsExecutedNext :
    0x3FF < 1024 ∧ State.reset.enc.inReady = true ∧ State.reset.dec.inReady = true := by decide

theorem witness_IdleMachineKeepsItsState :
    State.reset.turns = [] ∧ (withTurns [.block .encoder]).turns = [.block .encoder] ∧
      (withTurns [.block .encoder]).source .encoder = [] := by decide

/-- A started decoder with nothing pending, beside an encoder that has taken `PROTO`, meets the invariant. -/
theorem witness_StepKeepsTheBlockInvariant :
    State.BlockInv { State.reset with enc := blockAt 0 false 0b01, dec := blockAt 9 true 0b10 } ∧
      isNext (step { State.reset with enc := blockAt 0 false 0b01, dec := blockAt 9 true 0b10 }) = true := by
  refine ⟨⟨⟨?_, ⟨rfl, ?_⟩, ?_⟩, ⟨?_, ⟨rfl, ?_⟩, ?_⟩, rfl⟩, rfl⟩ <;>
    simp [Block.depthOk, Block.startOk, Block.beats, blockAt]

/-- A machine whose host has created, filled and finalized an Encoder meets the host's invariant. -/
theorem witness_StepKeepsTheHostInvariant :
    (withEncoder (lc1 .finalized)).host.Inv ∧ isNext (step (withEncoder (lc1 .finalized))) = true := by
  refine ⟨⟨?_, ?_, rfl, ?_, ?_⟩, rfl⟩
  · intro e he
    have : e = lc1 .finalized := (Option.some.inj he).symm
    subst this
    exact ⟨by decide, by decide, fun _ => by decide⟩
  · intro m hm; cases hm
  · intro q hq; cases hq
  · intro r hr; cases hr

theorem witness_HostEncoderCalls :
    (withEncoder (lc1 .finalized)).host.encoder = some (lc1 .finalized) ∧ (lc1 .finalized).life ≠ .opened ∧
      (lc1 .opened).life = .opened ∧ Frame.wf (lc1 .opened).channelCount ⟨1, [[5], [0]]⟩ = true ∧
      (lc1 .opened).queues.length = (lc1 .opened).channelCount.toNat ∧
      (⟨1, [[1]]⟩ : Frame).channels.length ≠ (lc1 .opened).channelCount.toNat ∧ (⟨0, [[], []]⟩ : Frame).sampleCount = 0 := by
  decide

theorem witness_BuildPacketChecksInOrder :
    (lc1 .consumed).life = .consumed ∧ (HostEncoder.create 8000 2).life ≠ .consumed ∧
      (HostEncoder.create 8000 2).totalSamples = 0 ∧ (lc1 .opened).totalSamples ≠ 0 := by decide

theorem witness_BuildPacketProducesTheImage :
    (lc1 .finalized).Inv ∧ (lc1 .finalized).life = .finalized ∧ 0 < (lc1 .finalized).totalSamples ∧
      (lc1 .finalized).totalSamples < 2 ^ 32 ∧ (withEncoder (lc1 .finalized)).enc.fault = 0 := by
  exact ⟨⟨by decide, by decide, fun _ => by decide⟩, by decide, by decide, by decide, by decide⟩

/-- The total field at its ends: `T_MAX` is the total itself (R6), and one more than it is free. -/
theorem test_totalField :
    totalField (2 ^ 32 - 1) = 0xFFFFFFFF#32 ∧ totalField (2 ^ 32) = Config.unstatedTotal (2 ^ 32) := by
  simp [totalField, Config.totalLimit]

theorem witness_FaultedEncoderProducesNoPacket :
    ((withEnc (blockAt 0 true 0b01)).setEncoder (lc1 .finalized)).host.encoder = some (lc1 .finalized) ∧
      ((withEnc (blockAt 0 true 0b01)).setEncoder (lc1 .finalized)).enc.fault ≠ 0 := by decide

theorem witness_WriteForwardsThePacketVerbatim :
    (after (hostCall .buildPacket (withEncoder (lc1 .finalized)))).host.packet = some (Memory.ofBytes p5File) ∧
      (after (hostCall .buildPacket (withEncoder (lc1 .finalized)))).host.encoder.isSome = true := by decide

theorem witness_HeaderRoundTrip :
    (⟨0, 1, 1⟩ : Header).channelCount ≠ 0 ∧ (⟨0, 1, 1⟩ : Header).totalSamples ≠ 0 := by decide

theorem witness_ReaderAcceptsExactlyWholePackets :
    (after (hostCall (.load p5File) State.reset)).host.file = Memory.ofBytes p5File ∧ 14 ≤ p5File.length ∧
      p5File.take 4 = [0x61#8, 0x73#8, 0x69#8, 0x66#8] ∧ 14 + 2 * 3 ≤ p5File.length ∧
      (p5File.take 13).length < 14 := by decide

theorem witness_ChannelBytesAreAtTheirOffsets :
    ([[10, 127], [0, 1]] : List (List Byte)).length = (⟨8000, 2, 2⟩ : Header).channelCount.toNat ∧
      (([[10, 127], [0, 1]] : List (List Byte)).all (fun b => b.length = (⟨8000, 2, 2⟩ : Header).totalSamples.toNat)) = true ∧
      ([[10, 127], [0, 1]] : List (List Byte))[1]? = some [0, 1] ∧ ([0, 1] : List Byte)[1]? = some 1 := by decide

theorem witness_DecodeIsAllOrNothing :
    (withParsed [10, 127, 128]).host.parsed = some (oneChannel [10, 127, 128]) ∧ (oneChannel [10, 127, 128]).Inv ∧
      (withParsed [10, 127, 128]).dec.fault = 0 ∧ [[10, 127, 128]].flatten = (oneChannel [10, 127, 128]).payload ∧
      badStream [10, 127, 128] = false ∧ badStream [200, 127, 0] = true := by
  refine ⟨by decide, ⟨by decide, by decide, by decide⟩, by decide, by decide, by decide, by decide⟩

theorem witness_DecodeIsAllOrNothing_faulted :
    ({ withParsed [10] with dec := blockAt 0 true 0b10 } : State).host.parsed = some (oneChannel [10]) ∧
      ({ withParsed [10] with dec := blockAt 0 true 0b10 } : State).dec.fault ≠ 0 := by decide

/-- The whole of P5, in four steps. -/
theorem witness_PacketTravelsEndToEnd :
    (match Host.Core.run Sys2Proof.core 4 { withEncoder (lc1 .finalized) with
        turns := [.host .buildPacket, .host .write, .host .read, .host .decode] } with
      | .next (t : State) => t.host.replies.getLast?
      | .fault _ => none
      | .refused _ => none) = some (.samples { sampleRate := 8000, channels := [[10, 137, 9], [0, 0, 0]] }) := by decide

theorem witness_FailingCallsChangeNothing :
    (after (hostCall .write State.reset)).host.replies.getLast? = some (.failed .invalidState) ∧
      isNext (hostCall .write State.reset) = true := by decide

theorem witness_FileStoresAreReadBack :
    (Memory.ofBytes p5File).wf = true ∧ 14 + ([1, 2] : List Byte).length ≤ (Memory.ofBytes p5File).len := by decide

theorem witness_TheMachineStopsByName :
    State.reset.host.file.len ≤ 0 ∧ (withTurns [.contend .decoder 1 2]).turns = [.contend .decoder 1 2] ∧
      (HostEncoder.create 8000 2).life = .opened ∧
      ([[1], []] : List (List Byte)).length = (HostEncoder.create 8000 2).channelCount.toNat ∧
      Frame.equalLengths { sampleCount := 1, channels := [[1], []] } = false := by decide

theorem witness_TraceNotationExpandsAsStated :
    255 < 256 ∧ (-128 : Int) ≤ -128 ∧ (127 : Int) ≤ 127 ∧ [] ∈ ([[1], []] : List (List Byte)) ∧
      [] ∉ ([[1], [2, 3]] : List (List Byte)) ∧ (⟨true, false, false, 0, false⟩ : PinsIn).rst = true := by decide

end Sys2Proof.Tests
end

