-- ==== Sys2Proof/Proofs/PureFunctions.lean ====
section
/-! The functions of R8, one lemma per case, and that `tc8` and `s8` undo each other. -/

namespace Sys2Proof.Machine

theorem clamp_of_lt {lo hi v : Int} (h : v < lo) : clamp lo hi v = lo := if_pos h

theorem clamp_of_gt {lo hi v : Int} (hle : lo ≤ hi) (h : hi < v) : clamp lo hi v = hi := by
  rw [clamp, if_neg (by omega), if_pos h]

theorem clamp_of_mem {lo hi v : Int} (hlo : lo ≤ v) (hhi : v ≤ hi) : clamp lo hi v = v := by
  rw [clamp, if_neg (by omega), if_neg (by omega)]

theorem tc8_toNat_of_nonneg {e : Int} (h₀ : 0 ≤ e) (h₁ : e ≤ 127) : ((tc8 e).toNat : Int) = e := by
  rw [tc8, if_pos h₀, toByte_toNat h₀ (by omega)]

theorem tc8_toNat_of_neg {e : Int} (h₀ : -128 ≤ e) (h₁ : e ≤ -1) : ((tc8 e).toNat : Int) = e + 256 := by
  rw [tc8, if_neg (by omega), toByte_toNat (by omega) (by omega)]

theorem s8_of_le {b : Byte} (h : b.toNat ≤ 127) : s8 b = b.toNat := if_pos h

theorem s8_of_ge {b : Byte} (h : 128 ≤ b.toNat) : s8 b = (b.toNat : Int) - 256 := if_neg (by omega)

/-- Half of the bijection of R8: a signed value of -128..127 survives the way through its byte. -/
theorem s8_tc8 {e : Int} (h₀ : -128 ≤ e) (h₁ : e ≤ 127) : s8 (tc8 e) = e := by
  rcases Int.lt_or_le e 0 with hneg | hnonneg
  · have hbyte := tc8_toNat_of_neg h₀ (by omega)
    rw [s8_of_ge (by omega), hbyte]
    omega
  · have hbyte := tc8_toNat_of_nonneg hnonneg h₁
    rw [s8_of_le (by omega), hbyte]

/-- The other half of the bijection of R8: a byte survives the way through its signed value. -/
@[simp] theorem tc8_s8 (b : Byte) : tc8 (s8 b) = b := by
  apply BitVec.eq_of_toNat_eq
  have hlt := b.isLt
  rcases Nat.lt_or_ge b.toNat 128 with hlow | hhigh
  · rw [s8_of_le (by omega)]
    have := tc8_toNat_of_nonneg (e := b.toNat) (by omega) (by omega)
    omega
  · rw [s8_of_ge hhigh]
    have := tc8_toNat_of_neg (e := (b.toNat : Int) - 256) (by omega) (by omega)
    omega

/-- Settles O4, by the cases of each function (`clampDelta` and `clampToUint8` are `clamp` at the bounds of `Config`) and the two
halves of the bijection, `s8_tc8` and `tc8_s8`. -/
theorem pureFunctionsMatchTheirDefinitions : Obligations.PureFunctionsMatchTheirDefinitions :=
  ⟨fun _ _ _ hle => ⟨clamp_of_lt, clamp_of_gt hle, clamp_of_mem⟩,
    fun _ => ⟨rfl, rfl⟩,
    fun _ => ⟨tc8_toNat_of_nonneg, tc8_toNat_of_neg⟩,
    fun _ => ⟨s8_of_le, s8_of_ge⟩,
    fun _ => s8_tc8,
    fun b => ⟨tc8_s8 b, s8_range b⟩⟩

end Sys2Proof.Machine
end

