-- ==== Sys2Proof/Proofs/BlockInvariants.lean ====
section
/-! What every step keeps of a block. `step_keeps` packages the induction on the path of a port once: a property of blocks that the
sink, an edge, an operation and a reset keep is kept by every step. -/

namespace Sys2Proof.Machine

/-! ### The beats of a queue -/

@[simp] theorem Block.tick_beats (b : Block) : b.tick.beats = b.beats := by
  simp [Block.beats, Function.comp_def]

@[simp] theorem Block.clear_beats (p : Port) (b : Block) : (Block.clear p b).beats = [] := rfl

theorem Block.beats_suffix {b : Block} {q : List QEntry} (h : q <:+ b.outq) :
    ({ b with outq := q } : Block).beats <:+ b.beats := h.map _

/-- Along a path the beats taken, followed by those in the queue, only grow at the end (R18). -/
theorem PortPath.produced_grows {p : Port} {b₁ b₂ : Block} {k₁ k₂ : List OutBeat} (h : PortPath p b₁ k₁ b₂ k₂) :
    k₁ ++ b₁.beats <+: k₂ ++ b₂.beats := by
  induction h with
  | refl b tk => exact ⟨[], List.append_nil _⟩
  | take b tk e es hq => simp [Block.beats, hq]
  | drain b tk => simp [Block.beats]
  | tick b tk => simp
  | op b tk i _ _ => simp [opBlock_beats]
  | trans _ _ ih₁ ih₂ => exact ih₁.trans ih₂

/-- Settles O39: a step is a path of the port, along which the produced beats only grow; a reset that ends it either finds the queue
empty, and loses nothing, or leaves what the sink has taken. -/
theorem noBeatIsLostExceptByReset : Obligations.NoBeatIsLostExceptByReset := by
  intro p s t h
  rcases step_port p h with path | ⟨b, path, hclear, hempty | htaken⟩
  · obtain ⟨new, hnew⟩ := path.produced_grows
    exact .inl ⟨new, hnew.symm⟩
  · obtain ⟨new, hnew⟩ := path.produced_grows
    have hb : b.beats = [] := by simp [Block.beats, hempty]
    exact .inl ⟨new, by simpa [State.produced, hclear, hb] using hnew.symm⟩
  · exact .inr (by simp [hclear, htaken])

/-! ### Properties of a block that every step keeps -/

/-- A property of the block at a port that no move breaks: beats leaving the queue, an edge, an operation of the port that is accepted
with room in the queue, and reset. -/
structure KeptByMoves (p : Port) (P : Block → Prop) : Prop where
  leave : ∀ (b : Block) (q : List QEntry), q <:+ b.outq → P b → P { b with outq := q }
  tick : ∀ b : Block, P b → P b.tick
  op : ∀ (b : Block) (i : Instr), i.port = p → b.outq.length < Config.qdepth → P b → P (opBlock i b)
  clear : ∀ b : Block, P b → P (Block.clear p b)

theorem PortPath.keeps {p : Port} {P : Block → Prop} (hP : KeptByMoves p P) {b₁ b₂ : Block} {k₁ k₂ : List OutBeat}
    (h : PortPath p b₁ k₁ b₂ k₂) : P b₁ → P b₂ := by
  induction h with
  | refl b tk => exact id
  | take b tk e es hq => exact hP.leave b es (hq ▸ List.suffix_cons e es)
  | drain b tk => exact hP.leave b [] List.nil_suffix
  | tick b tk => exact hP.tick b
  | op b tk i hp room => exact hP.op b i hp room
  | trans _ _ ih₁ ih₂ => exact ih₂ ∘ ih₁

/-- A property of blocks that no move breaks is kept by every step. -/
theorem step_keeps {p : Port} {P : Block → Prop} (hP : KeptByMoves p P) {s t : State} (h : step s = .next t)
    (hs : P (s.block p)) : P (t.block p) := by
  rcases step_port p h with path | ⟨b, path, hclear, -⟩
  · exact path.keeps hP hs
  · exact hclear ▸ hP.clear b (path.keeps hP hs)

/-! ### The invariant of one block -/

theorem errSticky_append_singleton {xs : List OutBeat} {x : OutBeat} (h : errSticky xs = true)
    (hx : (∃ y ∈ xs, y.err = true) → x.err = true) : errSticky (xs ++ [x]) = true := by
  induction xs with
  | nil => simp [errSticky]
  | cons y ys ih =>
    simp only [errSticky, Bool.and_eq_true, Bool.or_eq_true, Bool.not_eq_true'] at h
    obtain ⟨hy, hys⟩ := h
    have hrest := ih hys (fun ⟨z, hz, hze⟩ => hx ⟨z, List.mem_cons_of_mem y hz, hze⟩)
    cases hye : y.err with
    | false => simp [errSticky, hye, hrest]
    | true =>
      have hall : ∀ z ∈ ys, z.err = true := by simpa [hye] using hy
      have hxe : x.err = true := hx ⟨y, List.mem_cons_self, hye⟩
      simpa [errSticky, hye, hrest, hxe] using hall

theorem errSticky_suffix {xs ys : List OutBeat} (h : ys <:+ xs) (hx : errSticky xs = true) : errSticky ys = true := by
  obtain ⟨pre, rfl⟩ := h
  induction pre with
  | nil => exact hx
  | cons z zs ih =>
    simp only [List.cons_append, errSticky, Bool.and_eq_true] at hx
    obtain ⟨-, htail⟩ := hx
    exact ih htail

/-- While `run` stays 0 the only operation is a NEXT that takes `PROTO` (R151). -/
theorem opBlock_run_eq_false {i : Instr} {b : Block} :
    (opBlock i b).run = false ↔ b.run = false ∧ i.isFirst = false := by
  simp [opBlock_run]

theorem opBlock_fault_idle {i : Instr} {b : Block} (hrun : b.run = false) (hnext : i.isFirst = false) :
    (opBlock i b).fault = setFault .proto b.fault := by
  simp [opBlock_fault, hrun, hnext]

theorem newBeat_err (i : Instr) (b : Block) : (newBeat i b).err = errOf (opBlock i b).fault := rfl

theorem newBeat_first (i : Instr) (b : Block) : (newBeat i b).first = i.isFirst := rfl

theorem Block.errOk_opBlock (i : Instr) {b : Block} (h : b.errOk) : (opBlock i b).errOk := by
  obtain ⟨hsticky, hfault⟩ := h
  have hnew : (∃ x ∈ b.beats, x.err = true) → (newBeat i b).err = true :=
    fun hx => opBlock_err_keeps i b (hfault hx)
  constructor
  · rw [opBlock_beats]
    exact errSticky_append_singleton hsticky hnew
  · rintro ⟨x, hx, hxe⟩
    rw [opBlock_beats, List.mem_append, List.mem_singleton] at hx
    rcases hx with hold | rfl
    · exact hnew ⟨x, hold, hxe⟩
    · exact hxe

theorem Block.startOk_opBlock (i : Instr) {b : Block} (h : b.startOk) : (opBlock i b).startOk := by
  intro hrun x hx
  obtain ⟨hidle, hnext⟩ := opBlock_run_eq_false.mp hrun
  have hproto := opBlock_fault_idle hidle hnext
  rw [opBlock_beats, List.mem_append, List.mem_singleton] at hx
  rcases hx with hold | rfl
  · obtain ⟨hfirst, herr, -⟩ := h hidle x hold
    exact ⟨hfirst, herr, by simp [hproto]⟩
  · exact ⟨by rw [newBeat_first, hnext], by simp [newBeat_err, hproto], by simp [hproto]⟩

theorem Block.inv_of_outq_nil {b : Block} (h : b.outq = []) : b.Inv :=
  ⟨by simp [Block.depthOk, h], by simp [Block.errOk, Block.beats, h, errSticky], by simp [Block.startOk, Block.beats, h]⟩

/-- No move breaks the invariant of a block. -/
theorem keptByMoves_inv (p : Port) : KeptByMoves p Block.Inv where
  leave := by
    rintro b q hq ⟨hdepth, ⟨hsticky, hfault⟩, hstart⟩
    have hbeats := Block.beats_suffix hq
    exact ⟨hq.length_le.trans hdepth,
      ⟨errSticky_suffix hbeats hsticky, fun ⟨x, hx, hxe⟩ => hfault ⟨x, hbeats.subset hx, hxe⟩⟩,
      fun hrun x hx => hstart hrun x (hbeats.subset hx)⟩
  tick := by
    rintro b ⟨hdepth, herr, hstart⟩
    exact ⟨by simpa [Block.depthOk] using hdepth, by simpa [Block.errOk] using herr,
      by simpa [Block.startOk] using hstart⟩
  op := by
    rintro b i - room ⟨-, herr, hstart⟩
    exact ⟨by simpa [Block.depthOk, opBlock_outq] using room, Block.errOk_opBlock i herr,
      Block.startOk_opBlock i hstart⟩
  clear := fun b _ => Block.inv_of_outq_nil (Block.clear_outq p b)

/-- No operation of the encoder writes bit 1 of `fault` (R14). -/
theorem opBlock_encoder_invalidData {i : Instr} (h : i.port = .encoder) (b : Block) :
    (opBlock i b).fault.getLsbD 1 = b.fault.getLsbD 1 := by
  cases i with
  | encFirst x => rfl
  | encNext x => cases hrun : b.run <;> simp [opBlock_fault, Instr.isFirst, hrun]
  | decFirst x => cases h
  | decNext x => cases h

theorem keptByMoves_encBit : KeptByMoves .encoder (fun b => b.fault.getLsbD 1 = false) where
  leave := fun _ _ _ h => h
  tick := fun _ h => h
  op := fun b _ hp _ h => (opBlock_encoder_invalidData hp b).trans h
  clear := fun _ _ => by simp

/-- Settles O44: each part of the invariant is a property of one block that no move breaks. -/
theorem stepKeepsTheBlockInvariant : Obligations.StepKeepsTheBlockInvariant := by
  rintro s t ⟨henc, hdec, hbit⟩ h
  exact ⟨step_keeps (p := .encoder) (keptByMoves_inv _) h henc, step_keeps (p := .decoder) (keptByMoves_inv _) h hdec,
    step_keeps keptByMoves_encBit h hbit⟩

/-! ### The state at reset, and the status port -/

/-- Settles O43: the queues are empty, and there is no Encoder, no packet and no reply. -/
theorem invariantsHoldAtReset : Obligations.InvariantsHoldAtReset := by
  refine ⟨⟨Block.inv_of_outq_nil rfl, Block.inv_of_outq_nil rfl, by decide⟩, ?_⟩
  constructor <;> simp [State.reset, HostState.reset, Memory.wf, cellsOk]

/-- Settles O28, bit by bit. -/
theorem statusShowsRunAndFaults : Obligations.StatusShowsRunAndFaults := by
  intro b
  refine ⟨?_, ?_, ?_⟩ <;> simp only [Block.status, BitVec.getLsbD_append] <;> simp

/-- Settles O33: the reset state, and what a reset writes. -/
theorem resetStateIsAsStated : Obligations.ResetStateIsAsStated := by
  intro p
  constructor
  · cases p <;> decide
  · intro s
    simp [State.resetPort, Block.status]

/-! ### Back-pressure -/

theorem blockTurn_held {p : Port} {s : State} (h : (s.block p).inReady = false) : blockTurn p s = .next s := by
  unfold blockTurn
  split <;> simp [h]

theorem takeHead_outq (p : Port) (s : State) : ((s.takeHead p).block p).outq = (s.block p).outq.tail := by
  cases h : (s.block p).outq with
  | nil => simp [takeHead_nil h, h]
  | cons e es => simp [takeHead_cons h]

/-- Settles O37: the block's turn finds no room; taking one beat of `QDEPTH`, which is at least 1, makes room. -/
theorem fullQueueHoldsTheInput : Obligations.FullQueueHoldsTheInput := by
  intro p ts s hturns
  refine ⟨fun hfull => ?_, fun hfull => ⟨?_, ?_, takeHead_outq p s⟩⟩
  · rw [step_of_turns hturns]
    exact blockTurn_held (by simpa [Block.inReady] using hfull)
  · simp [Block.inReady, hfull]
  · have hpos : 0 < Config.qdepth := Nat.succ_pos _
    simp only [Block.inReady, takeHead_outq, List.length_tail, hfull, decide_eq_true_eq]
    omega

end Sys2Proof.Machine
end

