-- ==== Sys2Proof/Proofs/RunsOfOperations.lean ====
section
/-! What one operation leaves unchanged, and runs of operations: the fault bits, a predictor before the first FIRST, the past before a
FIRST, and the operations of the other block. -/

namespace Sys2Proof.Machine

/-! ### The frame of one operation -/

theorem opBlock_fault_first {i : Instr} (h : i.isFirst = true) (b : Block) : (opBlock i b).fault = b.fault := by
  simp [opBlock_fault, h]

/-- A running block never takes `PROTO` (R151). -/
theorem opBlock_proto_of_run (i : Instr) {b : Block} (h : b.run = true) :
    (opBlock i b).fault.getLsbD 0 = b.fault.getLsbD 0 := by
  cases i with
  | encFirst x => rfl
  | encNext x => simp [opBlock_fault, Instr.isFirst, h]
  | decFirst x => rfl
  | decNext x => cases hsum : sumOutOfRange (decodeSum b.prev x) <;> simp [opBlock_fault, Instr.isFirst, h, hsum]

theorem opBlock_prev_idle {i : Instr} {b : Block} (hnext : i.isFirst = false) (hrun : b.run = false) :
    (opBlock i b).prev = b.prev := by
  cases i with
  | encFirst x => cases hnext
  | encNext x => simp [opBlock_prev, hrun]
  | decFirst x => cases hnext
  | decNext x => simp [opBlock_prev, hrun]

/-- Settles O11: an operation replaces its own block alone (`exec_next`), and the rest is said of `opBlock`. -/
theorem operationFrame : Obligations.OperationFrame := by
  intro i s t h
  obtain rfl := exec_next h
  refine ⟨fun q hq => State.setBlock_block_other _ _ _ _ hq, fun q => by simp, by simp, by simp, fun off => by simp, ?_⟩
  rw [State.setBlock_block_same]
  refine ⟨fun hfirst => opBlock_fault_first hfirst _, fun hnext => by simp [opBlock_run, hnext],
    opBlock_proto_of_run i, fun henc => ?_, opBlock_prev_idle, by simp [opBlock_outq]⟩
  rw [henc]
  exact opBlock_encoder_invalidData henc s.enc

/-! ### The fault bits along a run -/

theorem runBlock_fault_keeps (is : List Instr) {b : Block} {k : Nat} (h : b.fault.getLsbD k = true) :
    (runBlock is b).fault.getLsbD k = true := by
  induction is generalizing b with
  | nil => exact h
  | cons i is ih => exact ih (opBlock_fault_keeps i b k h)

theorem runBlock_err_keeps (is : List Instr) {b : Block} (h : errOf b.fault = true) :
    errOf (runBlock is b).fault = true := by
  induction is generalizing b with
  | nil => exact h
  | cons i is ih => exact ih (opBlock_err_keeps i b h)

/-- Every beat of a faulted block is flagged (R154). -/
theorem runBeats_err_of_faulted (is : List Instr) {b : Block} (h : errOf b.fault = true) :
    ∀ x ∈ runBeats is b, x.err = true := by
  induction is generalizing b with
  | nil => simp
  | cons i is ih =>
    have hfault := opBlock_err_keeps i b h
    exact List.forall_mem_cons.mpr ⟨hfault, ih hfault⟩

/-- A flagged beat leaves the block faulted, so none is flagged in a run that ends without a fault. -/
theorem runBeats_err_of_unfaulted (is : List Instr) {b : Block} (h : errOf (runBlock is b).fault = false) :
    ∀ x ∈ runBeats is b, x.err = false := by
  induction is generalizing b with
  | nil => simp
  | cons i is ih =>
    refine List.forall_mem_cons.mpr ⟨?_, ih h⟩
    cases hfault : errOf (opBlock i b).fault with
    | false => exact hfault
    | true => rw [runBlock_cons, runBlock_err_keeps is hfault] at h; cases h

theorem runBeats_errSticky (is : List Instr) (b : Block) : errSticky (runBeats is b) = true := by
  induction is generalizing b with
  | nil => rfl
  | cons i is ih =>
    rw [runBeats_cons, errSticky, ih, newBeat_err, Bool.and_true]
    cases hfault : errOf (opBlock i b).fault with
    | false => rfl
    | true => simpa using runBeats_err_of_faulted is hfault

/-- Settles O26: the beats are those of the port's own operations, each flagged by the fault register as its operation left it. -/
theorem errIsStickyFromTheFirstFault : Obligations.ErrIsStickyFromTheFirstFault := by
  intro is p s t h
  rw [execAll_block h p]
  exact ⟨fun k => runBlock_fault_keeps _, _, runBlock_beats _ _, runBeats_errSticky _ _,
    fun hs => runBeats_err_of_faulted _ (errOf_eq_true.mpr hs),
    fun ht => runBeats_err_of_unfaulted _ (errOf_eq_false.mpr ht)⟩

/-! ### The predictor before the first FIRST -/

/-- The state with another predictor in the block at a port. -/
def State.withPrev (p : Port) (v : Byte) (s : State) : State := s.setBlock p { s.block p with prev := v }

@[simp] theorem State.withPrev_block_same (p : Port) (v : Byte) (s : State) :
    (s.withPrev p v).block p = { s.block p with prev := v } := State.setBlock_block_same _ _ _

theorem State.withPrev_block_other {p q : Port} (h : q ≠ p) (v : Byte) (s : State) :
    (s.withPrev p v).block q = s.block q := State.setBlock_block_other _ _ _ _ h

theorem State.setBlock_withPrev_same (p : Port) (v : Byte) (b : Block) (s : State) :
    (s.withPrev p v).setBlock p b = s.setBlock p b := State.setBlock_setBlock _ _ _ _

theorem State.setBlock_withPrev_other {p q : Port} (h : q ≠ p) (v : Byte) (b : Block) (s : State) :
    (s.withPrev p v).setBlock q b = (s.setBlock q b).withPrev p v := by
  cases p <;> cases q
  · exact absurd rfl h
  · rfl
  · rfl
  · exact absurd rfl h

theorem opBlock_first_withPrev {i : Instr} (h : i.isFirst = true) (b : Block) (v : Byte) :
    opBlock i { b with prev := v } = opBlock i b := by
  cases i with
  | encFirst x => rfl
  | encNext x => cases h
  | decFirst x => rfl
  | decNext x => cases h

/-- A NEXT of a block that has not been started answers `PROTO`, whatever the predictor (R151). -/
theorem opBlock_idle_withPrev {i : Instr} {b : Block} (hnext : i.isFirst = false) (hrun : b.run = false) (v : Byte) :
    opBlock i { b with prev := v } = { opBlock i b with prev := v } := by
  cases i with
  | encFirst x => cases hnext
  | encNext x => simp [opBlock, encodeNext_idle, hrun, Block.protoNext, Block.emit, Block.raise]
  | decFirst x => cases hnext
  | decNext x => simp [opBlock, decodeNext_idle, hrun, Block.protoNext, Block.emit, Block.raise]

/-- One operation while `run = 0`: a FIRST of the port erases the other predictor, any other operation passes it through. -/
theorem exec_withPrev {p : Port} {i : Instr} {s t : State} (v : Byte) (hrun : (s.block p).run = false)
    (h : exec i s = .next t) :
    exec i (s.withPrev p v) = .next t ∨
      (t.block p).run = false ∧ exec i (s.withPrev p v) = .next (t.withPrev p v) := by
  obtain rfl := exec_next h
  rw [exec_eq]
  by_cases hp : i.port = p
  · subst hp
    rw [State.setBlock_withPrev_same, State.withPrev_block_same]
    cases hfirst : i.isFirst with
    | true => exact .inl (by rw [opBlock_first_withPrev hfirst])
    | false =>
      refine .inr ⟨by simp [opBlock_run, hrun, hfirst], ?_⟩
      rw [opBlock_idle_withPrev hfirst hrun, State.withPrev, State.setBlock_block_same, State.setBlock_setBlock]
  · right
    rw [State.setBlock_withPrev_other hp, State.withPrev_block_other hp, State.setBlock_block_other _ _ _ _ (Ne.symm hp)]
    exact ⟨hrun, rfl⟩

theorem execAll_withPrev {p : Port} {is : List Instr} {s t : State} (v : Byte) (hrun : (s.block p).run = false)
    (h : execAll is s = .next t) :
    execAll is (s.withPrev p v) = .next t ∨
      (t.block p).run = false ∧ execAll is (s.withPrev p v) = .next (t.withPrev p v) := by
  induction is generalizing s with
  | nil =>
    cases h
    exact .inr ⟨hrun, rfl⟩
  | cons i is ih =>
    obtain ⟨u, hu, hrest⟩ := andThen_next h
    rcases exec_withPrev v hrun hu with herased | ⟨hidle, hkept⟩
    · left
      simpa [execAll, herased, andThen] using hrest
    · simpa [execAll, hkept, andThen] using ih hidle hrest

/-- Settles O30: at the end of the run the predictor has been erased by a FIRST, and the states agree, or it is still there and no
FIRST has come. -/
theorem predictorIsNotReadBeforeFirst : Obligations.PredictorIsNotReadBeforeFirst := by
  intro is p v s t hrun h
  rcases execAll_withPrev v hrun h with herased | ⟨hidle, hkept⟩
  · exact ⟨t, herased, rfl, rfl, fun _ => rfl⟩
  · refine ⟨t.withPrev p v, hkept, ?_, ?_, fun ht => ?_⟩
    · simp [Block.beats]
    · simp [Block.status]
    · rw [hidle] at ht; cases ht

/-! ### A FIRST erases the past -/

/-- Two blocks in the same stream: both running, with the same predictor. -/
structure SameStream (b c : Block) : Prop where
  prev : b.prev = c.prev
  runLeft : b.run = true
  runRight : c.run = true

theorem opBlock_first_sameStream {i : Instr} (h : i.isFirst = true) (b c : Block) :
    SameStream (opBlock i b) (opBlock i c) := by
  refine ⟨?_, by simp [opBlock_run, h], by simp [opBlock_run, h]⟩
  cases i with
  | encFirst x => rfl
  | encNext x => cases h
  | decFirst x => rfl
  | decNext x => cases h

theorem newBeat_first_data {i : Instr} (h : i.isFirst = true) (b c : Block) : (newBeat i b).data = (newBeat i c).data := by
  cases i with
  | encFirst x => rfl
  | encNext x => cases h
  | decFirst x => rfl
  | decNext x => cases h

theorem SameStream.afterOp {b c : Block} (h : SameStream b c) (i : Instr) : SameStream (opBlock i b) (opBlock i c) := by
  obtain ⟨hprev, hb, hc⟩ := h
  exact ⟨by simp [opBlock_prev, hprev, hb, hc], by simp [opBlock_run, hb], by simp [opBlock_run, hc]⟩

theorem SameStream.newBeat_data {b c : Block} (h : SameStream b c) (i : Instr) :
    (newBeat i b).data = (newBeat i c).data := by
  obtain ⟨hprev, hb, hc⟩ := h
  simp [newBeat, hprev, hb, hc]

theorem SameStream.afterRun {b c : Block} (h : SameStream b c) (is : List Instr) :
    SameStream (runBlock is b) (runBlock is c) := by
  induction is generalizing b c with
  | nil => exact h
  | cons i is ih => exact ih (h.afterOp i)

theorem SameStream.runBeats_data {b c : Block} (h : SameStream b c) (is : List Instr) :
    (runBeats is b).map OutBeat.data = (runBeats is c).map OutBeat.data := by
  induction is generalizing b c with
  | nil => rfl
  | cons i is ih => simp [h.newBeat_data i, ih (h.afterOp i)]

/-- Settles O31: after the FIRST both blocks are in the same stream, and stay there. -/
theorem firstErasesThePast : Obligations.FirstErasesThePast := by
  intro p i is s₁ s₂ hp hfirst his
  have hports : ∀ j ∈ i :: is, j.port = p := List.forall_mem_cons.mpr ⟨hp, his⟩
  have hstart := opBlock_first_sameStream hfirst (s₁.block p) (s₂.block p)
  obtain ⟨hprev, hrun₁, hrun₂⟩ := hstart.afterRun is
  refine ⟨_, _, runBeats (i :: is) (s₁.block p), runBeats (i :: is) (s₂.block p), execAll_samePort hports s₁,
    execAll_samePort hports s₂, ?_, ?_, ?_, ?_, ?_, ?_⟩
  · rw [State.setBlock_block_same, runBlock_beats]
  · rw [State.setBlock_block_same, runBlock_beats]
  · simp [newBeat_first_data hfirst (s₁.block p) (s₂.block p), hstart.runBeats_data is]
  · rw [runBeats_first, runBeats_first]
  · simpa using hprev
  · simp [hrun₁, hrun₂]

/-! ### The other block -/

/-- Settles O32: in both runs the block is its own operations run on it (`execAll_spec`). -/
theorem blocksDoNotInterfere : Obligations.BlocksDoNotInterfere := by
  intro p is s
  obtain ⟨t, ht, htb⟩ := execAll_spec is s
  obtain ⟨u, hu, hub⟩ := execAll_spec (is.filter (fun j => j.port = p)) s
  refine ⟨t, u, ht, hu, ?_⟩
  rw [htb p, hub p]
  simp

end Sys2Proof.Machine
end

