-- ==== Sys2Proof/Proofs/RunBit.lean ====
section
/-! Which moves can write `run` of a block (R13): those that execute an operation on it and those that reset it. The calls of the host
that drive no block change the host's part of the state alone. -/

namespace Sys2Proof.Machine

/-- A call that drives no block changes the host's software alone (R5). -/
theorem hostCall_software {c : HostCall} (hb : c ≠ .buildPacket) (hd : c ≠ .decode) {s t : State}
    (h : hostCall c s = .next t) : ∃ host : HostState, t = { s with host := host } := by
  cases c with
  | create rate n =>
    simp only [hostCall, hostCreate] at h
    split at h
    · cases h
    · cases h; exact ⟨_, rfl⟩
  | push f =>
    simp only [hostCall, hostPush] at h
    split at h
    · cases h
    · split at h
      · cases h; exact ⟨_, rfl⟩
      · split at h
        · cases h
        · split at h
          · cases h; exact ⟨_, rfl⟩
          · split at h
            · cases h; exact ⟨_, rfl⟩
            · cases h
  | finish =>
    simp only [hostCall, hostFinish] at h
    split at h
    · cases h
    · split at h <;> (cases h; exact ⟨_, rfl⟩)
  | buildPacket => exact absurd rfl hb
  | write =>
    simp only [hostCall, hostWrite] at h
    split at h
    · split at h
      · cases h
      · cases h; exact ⟨_, rfl⟩
    · cases h; exact ⟨_, rfl⟩
  | load bytes => cases h; exact ⟨_, rfl⟩
  | read =>
    simp only [hostCall, hostRead] at h
    split at h <;> (cases h; exact ⟨_, rfl⟩)
  | decode => exact absurd rfl hd
  | fileByte off =>
    simp only [hostCall, hostFileByte] at h
    split at h
    · cases h
    · cases h; exact ⟨_, rfl⟩

/-! ### What a port's own moves leave of the other block -/

theorem acceptWord_block_other {p q : Port} (hq : q ≠ p) {w : In9} {s t : State} (h : acceptWord p w s = .next t) :
    t.block q = s.block q := by
  rw [acceptWord_eq] at h
  cases h
  exact State.setBlock_block_other _ _ _ _ hq

theorem resetPort_block_other {p q : Port} (hq : q ≠ p) (s : State) : (s.resetPort p).block q = s.block q :=
  State.setBlock_block_other _ _ _ _ hq

/-- The transfer of a host procedure leaves the block it does not drive (R22). -/
theorem transfer_block_other {p q : Port} (hq : q ≠ p) {ws : List In9} {s t : State}
    (h : transfer p ws (s.drain p) = .next t) : t.block q = s.block q := by
  rw [transfer_eq p ws _ (drain_outq p s)] at h
  cases h
  simp [State.drain, State.setBlock_block_other _ _ _ _ hq]

theorem edgeSettles_block_other {p q : Port} (hq : q ≠ p) (pins : PinsIn) (s : State) :
    (edgeSettles p pins s).block q = s.block q := by
  unfold edgeSettles
  rw [State.setBlock_block_other _ _ _ _ hq]
  split
  · exact (takeHead_other hq s).1
  · rfl

theorem edgeTurn_block_other {p q : Port} (hq : q ≠ p) {pins : PinsIn} {s t : State}
    (h : edgeTurn p pins s = .next t) : t.block q = s.block q := by
  unfold edgeTurn at h
  split at h
  · cases h; exact resetPort_block_other hq s
  · split at h
    · exact (acceptWord_block_other hq h).trans (edgeSettles_block_other hq pins s)
    · cases h; exact edgeSettles_block_other hq pins s

theorem blockTurn_block_other {p q : Port} (hq : q ≠ p) {s t : State} (h : blockTurn p s = .next t) :
    t.block q = s.block q := by
  unfold blockTurn at h
  split at h
  · cases h; rfl
  · split at h
    · simpa using acceptWord_block_other hq h
    · cases h; rfl

theorem buildPacket_decoder {s t : State} (h : hostBuildPacket s = .next t) : t.dec = s.dec := by
  unfold hostBuildPacket at h
  split at h
  · cases h
  · split at h
    · cases h; rfl
    · split at h
      · cases h; rfl
      · split at h
        · cases h; rfl
        · obtain ⟨u, hu, h⟩ := andThen_next h
          have hdec : u.dec = s.dec := transfer_block_other (q := .decoder) (by decide) hu
          dsimp only at h
          split at h
          · cases h; exact hdec
          · split at h
            · cases h; exact hdec
            · cases h

theorem decode_encoder {s t : State} (h : hostDecode s = .next t) : t.enc = s.enc := by
  unfold hostDecode at h
  split at h
  · cases h
  · obtain ⟨u, hu, h⟩ := andThen_next h
    have henc : u.enc = s.enc := transfer_block_other (q := .encoder) (by decide) hu
    dsimp only at h
    split at h <;> (cases h; exact henc)

/-! ### The moves that can write `run` -/

theorem takeHead_run (p q : Port) (s : State) : ((s.takeHead p).block q).run = (s.block q).run := by
  by_cases hq : q = p
  · subst hq
    cases h : (s.block q).outq with
    | nil => rw [takeHead_nil h]
    | cons e es => simp [takeHead_cons h]
  · rw [(takeHead_other hq s).1]

theorem forwardTurn_run (p : Port) (s : State) : ((forwardTurn s).block p).run = (s.block p).run := by
  unfold forwardTurn
  split
  · rfl
  · simp [offerWord, takeHead_run]

/-- A move that may write `run` of the block at a port: it executes an operation on it, or resets it. -/
def Turn.mayWriteRun (p : Port) (x : Turn) : Prop :=
  x = .block p ∨ x = .reset p ∨ (∃ pins, x = .edge p pins) ∨ (p = .encoder ∧ x = .host .buildPacket) ∨
    (p = .decoder ∧ x = .host .decode)

theorem hostCall_run {p : Port} {c : HostCall} {s t : State} (h : hostCall c s = .next t)
    (hx : ¬ Turn.mayWriteRun p (.host c)) : (t.block p).run = (s.block p).run := by
  by_cases hb : c = .buildPacket
  · subst hb
    cases p with
    | encoder => exact absurd (.inr (.inr (.inr (.inl ⟨rfl, rfl⟩)))) hx
    | decoder => exact congrArg Block.run (buildPacket_decoder h)
  · by_cases hd : c = .decode
    · subst hd
      cases p with
      | encoder => exact congrArg Block.run (decode_encoder h)
      | decoder => exact absurd (.inr (.inr (.inr (.inr ⟨rfl, rfl⟩)))) hx
    · obtain ⟨host, rfl⟩ := hostCall_software hb hd h
      simp

theorem takeTurn_run {p : Port} {x : Turn} {s t : State} (h : takeTurn x s = .next t) (hx : ¬ Turn.mayWriteRun p x) :
    (t.block p).run = (s.block p).run := by
  cases x with
  | offer q w => cases h; simp [offerWord]
  | block q =>
    have hq : p ≠ q := by rintro rfl; exact hx (.inl rfl)
    rw [blockTurn_block_other hq h]
  | sink q => cases h; exact takeHead_run q p s
  | reset q =>
    have hq : p ≠ q := by rintro rfl; exact hx (.inr (.inl rfl))
    cases h
    rw [resetPort_block_other hq]
  | edge q pins =>
    have hq : p ≠ q := by rintro rfl; exact hx (.inr (.inr (.inl ⟨pins, rfl⟩)))
    rw [edgeTurn_block_other hq h]
  | forward => cases h; exact forwardTurn_run p s
  | contend q w v => cases h
  | host c => exact hostCall_run h hx

/-- Settles O29: an operation by `opBlock_run`, a reset by `Block.clear`, a step by the moves that can write `run`. -/
theorem runIsWrittenByFirstAndResetOnly : Obligations.RunIsWrittenByFirstAndResetOnly := by
  refine ⟨fun i s t h => ?_, fun p s => by simp [State.resetPort], fun p s t h hrun => ?_⟩
  · rw [exec_next h, State.setBlock_block_same, opBlock_run]
  · rcases step_turn h with ⟨-, rfl⟩ | ⟨x, xs, hturns, hx⟩
    · exact absurd rfl hrun
    · refine ⟨x, xs, hturns, ?_⟩
      by_contra hnot
      exact hrun (by simpa using takeTurn_run hx hnot)

end Sys2Proof.Machine
end

