-- ==== Sys2Proof/Proofs/FileMemory.lean ====
section
/-! The file as a memory of bytes: one equation for a read after a store (`Memory.read_store`), and from it the bytes of a packet image
(`packetImage_spec`), its channels at their offsets, and the machine's stops by name. -/

namespace Sys2Proof.Machine

/-! ### Reads and stores -/

/-- The file has no offset at or past its length (R33). -/
theorem Memory.read_of_len_le {m : Memory} {a : Nat} (h : m.len ≤ a) : m.read a = none := if_neg (by omega)

theorem Memory.read_of_lt {m : Memory} {a : Nat} (h : a < m.len) : m.read a = some (lookupCell m.cells a) := if_pos h

/-- A store that fits answers a memory in canonical form, of the same length, that reads the bytes stored where they were stored and
the bytes before it everywhere else. -/
theorem Memory.read_store {m : Memory} (h : m.wf = true) {off : Nat} {bs : List Byte} (hb : off + bs.length ≤ m.len) :
    ∃ m', m.store off bs = some m' ∧ m'.wf = true ∧ m'.len = m.len ∧
      ∀ a, m'.read a = if off ≤ a ∧ a < off + bs.length then bs[a - off]? else m.read a := by
  obtain ⟨m', hstore, hwf, hlen, hcell⟩ := Memory.store_spec h hb
  refine ⟨m', hstore, hwf, hlen, fun a => ?_⟩
  rcases Nat.lt_or_ge a m.len with hin | hpast
  · rw [Memory.read_of_lt (hlen ▸ hin), Memory.read_of_lt hin, hcell]
    split
    · have hk : a - off < bs.length := by omega
      simp [hk]
    · rfl
  · rw [Memory.read_of_len_le (hlen ▸ hpast), Memory.read_of_len_le hpast, if_neg (by omega)]

/-- Settles O58, by the equation for a read after a store, at an offset of the store, outside it, and past the file. -/
theorem fileStoresAreReadBack : Obligations.FileStoresAreReadBack := by
  intro m off bs hwf hfits
  obtain ⟨m', hstore, hwf', hlen, hread⟩ := Memory.read_store hwf hfits
  refine ⟨m', hstore, hwf', hlen, fun k x hk => ?_, fun a ha => ?_, fun a ha => ?_⟩
  · obtain ⟨hlt, -⟩ := List.getElem?_eq_some_iff.mp hk
    rw [hread, if_pos (by omega), Nat.add_sub_cancel_left, hk]
  · rw [hread, if_neg (by omega)]
  · exact Memory.read_of_len_le (by omega)

/-! ### The packet image -/

/-- A payload of `N*T` bytes has a packet image: a file of `14 + N*T` bytes that reads the header and then the payload (R33, R118). -/
theorem packetImage_spec {t : Nat} {h : Header} {payload : List Byte} (hp : payload.length = h.channelCount.toNat * t) :
    ∃ image : Memory, packetImage t h payload = some image ∧ image.wf = true ∧
      image.len = packetSize h.channelCount.toNat t ∧ ∀ a, image.read a = (writeHeader h ++ payload)[a]? := by
  have hsize : packetSize h.channelCount.toNat t = 14 + payload.length := by rw [hp, packetSize, Config.hdrBytes]
  obtain ⟨m, hheader, hmwf, hmlen, hmread⟩ := Memory.read_store (off := 0) (bs := writeHeader h)
    (Memory.blank_wf (packetSize h.channelCount.toNat t)) (by simp [Memory.blank, hsize])
  have hmsize : m.len = 14 + payload.length := hmlen.trans hsize
  obtain ⟨image, hstore, hwf, hlen, hread⟩ := Memory.read_store (off := Config.hdrBytes) (bs := payload) hmwf hmsize.ge
  refine ⟨image, by simp [packetImage, hheader, hstore], hwf, hlen.trans hmlen, fun a => ?_⟩
  rw [hread, hmread]
  simp only [Config.hdrBytes, writeHeader_length, Nat.zero_add, Nat.zero_le, true_and, Nat.sub_zero]
  rcases Nat.lt_or_ge a 14 with hhead | hpay
  · rw [if_neg (by omega), if_pos hhead, List.getElem?_append_left (by simpa using hhead)]
  · rw [List.getElem?_append_right (by simpa using hpay), writeHeader_length, if_neg (by omega : ¬ a < 14)]
    split
    · rfl
    · rw [List.getElem?_eq_none (by omega), Memory.read_of_len_le (by simp [Memory.blank, hsize]; omega)]

theorem flatten_length_of_forall {t : Nat} {channels : List (List Byte)} (ht : ∀ b ∈ channels, b.length = t) :
    channels.flatten.length = channels.length * t := by
  rw [List.length_flatten, List.map_congr_left ht, List.map_const', List.sum_replicate, smul_eq_mul]

/-- Byte `i` of channel `c`, where every channel has `t` bytes, is byte `c*t + i` of the channels laid end to end (R35). -/
theorem flatten_getElem?_of_forall {t : Nat} {channels : List (List Byte)} (ht : ∀ b ∈ channels, b.length = t)
    {c i : Nat} {a : List Byte} {x : Byte} (ha : channels[c]? = some a) (hx : a[i]? = some x) :
    channels.flatten[c * t + i]? = some x := by
  induction channels generalizing c with
  | nil => simp at ha
  | cons b bs ih =>
    obtain ⟨hb, hbs⟩ := List.forall_mem_cons.mp ht
    cases c with
    | zero =>
      obtain rfl : b = a := by simpa using ha
      obtain ⟨hi, -⟩ := List.getElem?_eq_some_iff.mp hx
      rw [List.flatten_cons, Nat.zero_mul, Nat.zero_add, List.getElem?_append_left hi, hx]
    | succ c =>
      have hoff : (c + 1) * t + i = b.length + (c * t + i) := by rw [hb]; ring
      rw [hoff, List.flatten_cons, List.getElem?_append_right (by omega), Nat.add_sub_cancel_left]
      exact ih hbs (by simpa using ha)

/-- Settles O54: the image reads the header's 14 bytes and then the channels laid end to end. -/
theorem channelBytesAreAtTheirOffsets : Obligations.ChannelBytesAreAtTheirOffsets := by
  intro h t channels c i x a hn ht ha hx
  obtain ⟨image, himage, -, hlen, hread⟩ := packetImage_spec (t := t) (h := h) (payload := channels.flatten)
    (by rw [flatten_length_of_forall ht, hn])
  refine ⟨image, himage, ?_, Memory.read_of_len_le le_rfl, hlen⟩
  have hpayload := flatten_getElem?_of_forall ht ha hx
  rw [hread, List.getElem?_append_right (by simp; omega), writeHeader_length, ← hpayload]
  congr 1
  omega

/-! ### The stops -/

theorem hostFileByte_of_len_le {off : Nat} {s : State} (h : s.host.file.len ≤ off) :
    hostFileByte off s = .fault (.offsetOutsideFile off) := by
  rw [hostFileByte, Memory.read_of_len_le h]

theorem hostPush_null {e : HostEncoder} {s : State} (he : s.host.encoder = some e) (hlife : e.life = .opened) :
    hostPush none s = .refused .nullFrame := by
  simp [hostPush, he, hlife]

theorem hostPush_unequal {e : HostEncoder} {f : Frame} {s : State} (he : s.host.encoder = some e)
    (hlife : e.life = .opened) (hn : f.channels.length = e.channelCount.toNat) (hcount : f.sampleCount ≠ 0)
    (hf : f.equalLengths = false) : hostPush (some f) s = .refused .unequalFrame := by
  simp [hostPush, he, hlife, hn, hcount, hf]

/-- Settles O59: a read past the file, two drivers, and the two refusals of `push`. -/
theorem theMachineStopsByName : Obligations.TheMachineStopsByName :=
  ⟨fun _ _ => hostFileByte_of_len_le, fun _ _ _ _ _ hturns => step_of_turns hturns,
    fun _ _ he hlife => ⟨hostPush_null he hlife, fun _ => hostPush_unequal he hlife⟩⟩

end Sys2Proof.Machine
end

