-- ==== Sys2Proof/Proofs/Schedule.lean ====
section
/-! However blocks and sinks take turns, a port makes one run of its accepted words (R32, R40). `PortRun` says so of any two states;
it is reflexive, composes, and holds over every beat-level move, so it holds over every schedule. -/

namespace Sys2Proof.Machine

/-! ### The block's turn -/

theorem blockTurn_accepts {p : Port} {w : In9} {ws : List In9} {s : State} (hw : s.source p = w :: ws)
    (hroom : (s.block p).inReady = true) : blockTurn p s = acceptWord p w (s.setSource p ws) := by
  simp [blockTurn, hw, hroom]

/-- Inversion of `blockTurn`: the block is held or has nothing offered, or it executes the offered word. -/
theorem blockTurn_next {p : Port} {s t : State} (h : blockTurn p s = .next t) :
    t = s ∨ ∃ w ws, s.source p = w :: ws ∧ t = (s.setSource p ws).setBlock p (opBlock (decode p w) (s.block p)) := by
  cases hw : s.source p with
  | nil => exact .inl (by simpa [blockTurn, hw] using h.symm)
  | cons w ws =>
    cases hroom : (s.block p).inReady with
    | false =>
      rw [blockTurn_held hroom] at h
      exact .inl (Host.Outcome.next.inj h).symm
    | true =>
      rw [blockTurn_accepts hw hroom, acceptWord_eq, State.setSource_block] at h
      exact .inr ⟨w, ws, rfl, (Host.Outcome.next.inj h).symm⟩

/-- Settles O40: the step is the block's turn, which accepts the offered word. -/
theorem stepExecutesTheOfferedWord : Obligations.StepExecutesTheOfferedWord := by
  intro p w ws ts s hturns hw hroom
  rw [step_of_turns hturns]
  exact blockTurn_accepts (by simpa using hw) (by simpa using hroom)

/-! ### The run a port has made between two states -/

theorem runBlock_append (is js : List Instr) (b : Block) : runBlock (is ++ js) b = runBlock js (runBlock is b) :=
  List.foldl_append

theorem runBeats_append (is js : List Instr) (b : Block) :
    runBeats (is ++ js) b = runBeats is b ++ runBeats js (runBlock is b) := by
  induction is generalizing b with
  | nil => rfl
  | cons i is ih => simp [ih]

/-- Between two states the port has accepted the words `ws` and nothing else: its source has used them up, its block is as their
operations leave it but for what the sink has taken out of the queue, and their beats are what it has produced. -/
structure PortRun (p : Port) (ws : List In9) (s t : State) : Prop where
  source : s.source p = ws ++ t.source p
  block : t.block p = { runBlock (ws.map (decode p)) (s.block p) with outq := (t.block p).outq }
  produced : t.produced p = s.produced p ++ runBeats (ws.map (decode p)) (s.block p)

theorem PortRun.same {p : Port} {s t : State} (hsource : t.source p = s.source p) (hblock : t.block p = s.block p)
    (htaken : t.taken p = s.taken p) : PortRun p [] s t :=
  ⟨hsource.symm, by simp [hblock], by simp [State.produced, hblock, htaken]⟩

theorem PortRun.trans {p : Port} {ws₁ ws₂ : List In9} {s t u : State} (h₁ : PortRun p ws₁ s t) (h₂ : PortRun p ws₂ t u) :
    PortRun p (ws₁ ++ ws₂) s u := by
  obtain ⟨hsource₁, hblock₁, hproduced₁⟩ := h₁
  obtain ⟨hsource₂, hblock₂, hproduced₂⟩ := h₂
  refine ⟨by rw [hsource₁, hsource₂, List.append_assoc], ?_, ?_⟩
  · rw [hblock₁, runBlock_withOutq] at hblock₂
    rw [hblock₂, List.map_append, runBlock_append]
  · rw [hblock₁, runBeats_withOutq] at hproduced₂
    rw [hproduced₂, hproduced₁, List.map_append, runBeats_append, List.append_assoc]

theorem portRun_takeHead (p : Port) (s : State) : PortRun p [] s (s.takeHead p) := by
  cases h : (s.block p).outq with
  | nil =>
    rw [takeHead_nil h]
    exact .same rfl rfl rfl
  | cons e es =>
    rw [takeHead_cons h]
    exact ⟨by simp, by simp, by simp [State.produced, Block.beats, h]⟩

/-- The word accepted is the whole of the run (R39). -/
theorem portRun_accept {p : Port} {w : In9} {ws : List In9} {s : State} (hw : s.source p = w :: ws) :
    PortRun p [w] s ((s.setSource p ws).setBlock p (opBlock (decode p w) (s.block p))) :=
  ⟨by simp [hw], by simp, by simp [State.produced, opBlock_beats]⟩

theorem portRun_blockTurn {p : Port} {s t : State} (h : blockTurn p s = .next t) : ∃ ws, PortRun p ws s t := by
  rcases blockTurn_next h with rfl | ⟨w, ws, hw, rfl⟩
  · exact ⟨[], .same rfl rfl rfl⟩
  · exact ⟨[w], portRun_accept hw⟩

/-- A block's turn at another port. -/
theorem portRun_blockTurn_other {p q : Port} (hq : p ≠ q) {s t : State} (h : blockTurn q s = .next t) :
    PortRun p [] s t := by
  rcases blockTurn_next h with rfl | ⟨w, ws, -, rfl⟩
  · exact .same rfl rfl rfl
  · exact .same (by rw [State.setBlock_source, State.setSource_source_other _ _ _ _ hq])
      (by rw [State.setBlock_block_other _ _ _ _ hq, State.setSource_block]) (by simp)

/-! ### Schedules of beat-level moves -/

/-- The beat-level moves are those of the blocks and of the sinks (R163). -/
theorem Turn.isBeatMove_cases {x : Turn} (hx : Turn.isBeatMove x = true) : ∃ q, x = .block q ∨ x = .sink q := by
  cases x with
  | block q => exact ⟨q, .inl rfl⟩
  | sink q => exact ⟨q, .inr rfl⟩
  | offer q w => cases hx
  | reset q => cases hx
  | edge q pins => cases hx
  | forward => cases hx
  | contend q w v => cases hx
  | host c => cases hx

/-- A beat-level move makes a run of every port. -/
theorem portRun_takeTurn (p : Port) {x : Turn} (hx : Turn.isBeatMove x = true) {s t : State}
    (h : takeTurn x s = .next t) : ∃ ws, PortRun p ws s t := by
  obtain ⟨q, rfl | rfl⟩ := Turn.isBeatMove_cases hx <;> by_cases hq : p = q
  · subst hq; exact portRun_blockTurn h
  · exact ⟨[], portRun_blockTurn_other hq h⟩
  · subst hq; cases h; exact ⟨[], portRun_takeHead p s⟩
  · cases h
    obtain ⟨hblock, htaken⟩ := takeHead_other hq s
    exact ⟨[], .same (takeHead_source _ _ _) hblock htaken⟩

/-- A beat-level move adds no move to those still to come. -/
theorem takeTurn_beat_turns {x : Turn} (hx : Turn.isBeatMove x = true) {s t : State} (h : takeTurn x s = .next t) :
    t.turns = s.turns := by
  obtain ⟨q, rfl | rfl⟩ := Turn.isBeatMove_cases hx
  · rcases blockTurn_next h with rfl | ⟨w, ws, -, rfl⟩
    · rfl
    · simp
  · cases h; simp

/-- One step of a schedule of beat-level moves: a run of the port, and the rest of the schedule. -/
theorem portRun_step (p : Port) {s t : State} (hs : s.turns.all Turn.isBeatMove = true) (h : step s = .next t) :
    (∃ ws, PortRun p ws s t) ∧ t.turns.all Turn.isBeatMove = true := by
  rcases step_turn h with ⟨-, rfl⟩ | ⟨x, xs, hturns, hx⟩
  · exact ⟨⟨[], .same rfl rfl rfl⟩, hs⟩
  · rw [hturns, List.all_cons, Bool.and_eq_true] at hs
    obtain ⟨hbeat, hrest⟩ := hs
    obtain ⟨ws, hrun⟩ := portRun_takeTurn p hbeat hx
    have hstart : PortRun p [] s { s with turns := xs } := .same (by simp) (by simp) (by simp)
    exact ⟨⟨ws, hstart.trans hrun⟩, by rw [takeTurn_beat_turns hbeat hx]; exact hrest⟩

/-- Inversion of a run of the machine: its first step, then the rest. -/
theorem run_succ_next {M : Host.Core} {n : Nat} {s t : M.State} (h : M.run (n + 1) s = .next t) :
    ∃ u, M.step s = .next u ∧ M.run n u = .next t := by
  unfold Host.Core.run at h
  split at h
  · next u hstep => exact ⟨u, hstep, h⟩
  · cases h
  · cases h

theorem portRun_run (p : Port) {n : Nat} {s t : State} (hs : s.turns.all Turn.isBeatMove = true)
    (h : Host.Core.run Sys2Proof.core n s = .next t) : ∃ ws, PortRun p ws s t := by
  induction n generalizing s with
  | zero => cases h; exact ⟨[], .same rfl rfl rfl⟩
  | succ n ih =>
    obtain ⟨u, hstep, hrest⟩ := run_succ_next h
    obtain ⟨⟨ws₁, hrun₁⟩, hu⟩ := portRun_step p hs hstep
    obtain ⟨ws₂, hrun₂⟩ := ih hu hrest
    exact ⟨ws₁ ++ ws₂, hrun₁.trans hrun₂⟩

/-- Settles O38: the schedule makes one run of the port, and executing that run's words one after the other gives the same beats. -/
theorem outputDoesNotDependOnTheSchedule : Obligations.OutputDoesNotDependOnTheSchedule := by
  intro n p s t hs h
  obtain ⟨ws, hsource, hblock, hproduced⟩ := portRun_run p hs h
  have hports : ∀ i ∈ ws.map (decode p), i.port = p := List.forall_mem_map.mpr fun w _ => decode_port p w
  refine ⟨ws, _, runBeats (ws.map (decode p)) (s.block p), hsource, execAll_samePort hports s, ?_, hproduced, ?_, ?_⟩
  · rw [State.setBlock_block_same, runBlock_beats]
  · simp [runBeats_first, Function.comp_def, decode_isFirst]
  · rw [State.setBlock_block_same, hblock]
    rfl

end Sys2Proof.Machine
end

