-- ==== Sys2Proof/Proofs/Encoding.lean ====
section
/-! A beat, its word and its operation are the same data three times over: `InBeat.word` and `InBeat.ofWord` undo each other, an
operation is encoded as the word of its own marker and byte (`encode_eq_word`), and a word with its port is one operation. -/

namespace Sys2Proof

open Machine

/-! ### The fields of a word (R50, R51) -/

theorem toNat_append_eq_add {m n : Nat} (x : BitVec m) (y : BitVec n) : (x ++ y).toNat = 2 ^ n * x.toNat + y.toNat := by
  rw [BitVec.toNat_append, ← Nat.shiftLeft_add_eq_or_of_lt y.isLt, Nat.shiftLeft_eq, Nat.mul_comm]

theorem InBeat.word_toNat (b : InBeat) : b.word.toNat = 256 * b.first.toNat + b.data.toNat := by
  rw [InBeat.word, toNat_append_eq_add, BitVec.toNat_ofBool]
  rfl

theorem InBeat.word_eq_ofNat (b : InBeat) : b.word = BitVec.ofNat 9 (256 * b.first.toNat + b.data.toNat) := by
  rw [← InBeat.word_toNat, BitVec.ofNat_toNat, BitVec.setWidth_eq]

theorem OutBeat.word_toNat (b : OutBeat) : b.word.toNat = 512 * b.err.toNat + 256 * b.first.toNat + b.data.toNat := by
  rw [OutBeat.word, toNat_append_eq_add, toNat_append_eq_add, BitVec.toNat_ofBool, BitVec.toNat_ofBool]
  omega

/-- Bit 8 parts the 9-bit words into the FIRST words, 0x100 and above, and the NEXT words below (R53). -/
theorem getLsbD_eight (w : In9) : w.getLsbD 8 = decide (0x100 ≤ w.toNat) :=
  (BitVec.msb_eq_getLsbD_last w).symm.trans (BitVec.msb_eq_decide w)

theorem word_ofWord (w : In9) : (InBeat.ofWord w).word = w := by
  apply BitVec.eq_of_toNat_eq
  have hlt := w.isLt
  rw [InBeat.word_toNat, InBeat.ofWord, getLsbD_eight, BitVec.extractLsb'_toNat]
  by_cases hfirst : 0x100 ≤ w.toNat <;> simp [hfirst] <;> omega

/-! ### Operations and words (R53) -/

/-- An operation is encoded as the word of its own marker and byte, on its own port. -/
theorem encode_eq_word (i : Instr) : encode i = (i.port, InBeat.word ⟨i.isFirst, i.byte⟩) := by
  rw [InBeat.word_eq_ofNat]
  cases i <;> simp [encode, Instr.port, Instr.isFirst, Instr.byte]

/-- An operation is what its own port, marker and byte select. -/
theorem decodeBeat_fields (i : Instr) : decodeBeat i.port ⟨i.isFirst, i.byte⟩ = i := by cases i <;> rfl

theorem decodeBeat_byte (p : Port) (b : InBeat) : (decodeBeat p b).byte = b.data := by
  unfold decodeBeat
  split <;> rfl

theorem decode_encode (i : Instr) : decode (encode i).1 (encode i).2 = i := by
  rw [encode_eq_word, decode_word, decodeBeat_fields]

theorem encode_decode (p : Port) (w : In9) : encode (decode p w) = (p, w) := by
  rw [encode_eq_word, decode, decodeBeat_port, decodeBeat_isFirst, decodeBeat_byte, word_ofWord]

/-! ### The tagged beat (notes/assumptions/8.md) -/

/-- The decoder of tagged beats, on any byte that holds nothing above the port's tag. -/
theorem decodeBytes_of_lt {lo hi : Byte} (h : hi.toNat < 4) (rest : List Byte) :
    decodeBytes (lo :: hi :: rest) = .instr (decodeBeat (portOfTag (hi.getLsbD 1)) ⟨hi.getLsbD 0, lo⟩) rest := by
  rw [decodeBytes, if_pos h]
  exact congrArg (Decoded.instr · rest) (decode_word _ ⟨hi.getLsbD 0, lo⟩)

/-- The upper byte of a tagged beat holds the marker in bit 0 and the port's tag in bit 1. -/
theorem tagByte_fields (p : Port) (first : Bool) :
    let hi : Byte := (BitVec.ofBool p.tag ++ BitVec.ofBool first).zeroExtend 8
    hi.toNat < 4 ∧ portOfTag (hi.getLsbD 1) = p ∧ hi.getLsbD 0 = first := by
  cases p <;> cases first <;> decide

theorem decodeBytes_encodeBytes (i : Instr) (rest : List Byte) : decodeBytes (encodeBytes i ++ rest) = .instr i rest := by
  obtain ⟨hlt, hport, hfirst⟩ := tagByte_fields i.port i.isFirst
  rw [encodeBytes, List.cons_append, List.cons_append, List.nil_append, decodeBytes_of_lt hlt, hport, hfirst,
    decodeBeat_fields]

/-- Settles O1: on a port the word holds the operation's own marker and byte; the tagged beat holds its port too. -/
theorem decodeUndoesEncodeForEveryOperation : Obligations.DecodeUndoesEncodeForEveryOperation :=
  fun i rest => ⟨decode_encode i, decodeBytes_encodeBytes i rest⟩

/-! ### Match and mask (R53) -/

theorem and_firstMask (w : In9) : w &&& 0x100#9 = if 0x100 ≤ w.toNat then 0x100#9 else 0#9 := by
  have hmask : 0x100#9 = BitVec.twoPow 9 8 := rfl
  rw [hmask, BitVec.and_twoPow, getLsbD_eight]
  simp only [decide_eq_true_eq]

theorem and_firstMask_eq_mask (w : In9) : w &&& 0x100#9 = 0x100#9 ↔ 0x100 ≤ w.toNat := by
  rw [and_firstMask]
  split <;> simp [*]

theorem and_firstMask_eq_zero (w : In9) : w &&& 0x100#9 = 0#9 ↔ w.toNat ≤ 0xFF := by
  rw [and_firstMask]
  split <;> simp <;> omega

theorem decode_eq_decodeBeat (p : Port) (w : In9) :
    decode p w = decodeBeat p ⟨decide (w &&& 0x100#9 = 0x100#9), w.setWidth 8⟩ := by
  simp only [decode, InBeat.ofWord, getLsbD_eight, and_firstMask_eq_mask, BitVec.setWidth_eq_extractLsb' (by omega : 8 ≤ 9)]

/-- Settles O2: the operation by the two cases of bit 8 on each port, the ranges, and `encode_decode`. -/
theorem everyWordSelectsExactlyOneOperation : Obligations.EveryWordSelectsExactlyOneOperation := by
  intro p w
  refine ⟨?_, and_firstMask_eq_mask w, and_firstMask_eq_zero w, encode_decode p w⟩
  rw [decode_eq_decodeBeat]
  by_cases hfirst : w &&& 0x100#9 = 0x100#9 <;> cases p <;> simp [hfirst, decodeBeat]

/-- Settles O3: the four words, evaluated. -/
theorem writtenOutWordsDecode : Obligations.WrittenOutWordsDecode := by
  unfold Obligations.WrittenOutWordsDecode
  decide

/-! ### Two's complement (R55) -/

theorem s8_eq_toInt (b : Byte) : s8 b = b.toInt := by
  rw [BitVec.toInt_eq_toNat_cond]
  split
  · exact s8_of_le (by omega)
  · exact s8_of_ge (by omega)

/-- The byte whose signed value is `e` is unique, and `BitVec.ofInt` gives it. -/
theorem tc8_eq_ofInt {e : Int} (h₀ : -128 ≤ e) (h₁ : e ≤ 127) : tc8 e = BitVec.ofInt 8 e := by
  have hvalue : s8 (BitVec.ofInt 8 e) = e := by
    rw [s8_eq_toInt, BitVec.toInt_ofInt]
    exact Int.bmod_eq_of_le (by omega) (by omega)
  calc tc8 e = tc8 (s8 (BitVec.ofInt 8 e)) := by rw [hvalue]
    _ = BitVec.ofInt 8 e := tc8_s8 _

/-- Settles O5. -/
theorem deltaBytesAreTwosComplement : Obligations.DeltaBytesAreTwosComplement :=
  ⟨s8_eq_toInt, fun _ => tc8_eq_ofInt⟩

/-! ### A placed word (notes/assumptions/8.md) -/

/-- The number of a tagged beat is its port's tag in bit 9 above its 9-bit word. -/
theorem decodeTableWord_of_lt {w : Nat} (h : w < 1024) :
    decodeTableWord 16 w = some (decode (portOfTag (decide (512 ≤ w))) (BitVec.ofNat 9 w)) := by
  have hhi : (BitVec.ofNat 8 (w / 256)).toNat = w / 256 := by rw [BitVec.toNat_ofNat]; omega
  have htag : (BitVec.ofNat 8 (w / 256)).getLsbD 1 = decide (512 ≤ w) := by
    rw [BitVec.getLsbD, hhi, Nat.testBit_eq_decide_div_mod_eq, decide_eq_decide]
    omega
  have hword : InBeat.word ⟨(BitVec.ofNat 8 (w / 256)).getLsbD 0, BitVec.ofNat 8 w⟩ = BitVec.ofNat 9 w := by
    apply BitVec.eq_of_toNat_eq
    rw [InBeat.word_toNat, BitVec.getLsbD, hhi, Nat.testBit_zero]
    rw [BitVec.toNat_ofNat, BitVec.toNat_ofNat, Bool.toNat, Bool.cond_decide]
    split <;> omega
  rw [← hword, decode_word, ← htag, decodeTableWord]
  simp only [Nat.mod_eq_of_lt (by omega : w < 2 ^ 16), if_pos (by omega : w < 65536), beatBytes,
    decodeBytes_of_lt (by omega : (BitVec.ofNat 8 (w / 256)).toNat < 4)]

/-- Where there is room, placing a word only offers it and gives the block its turn, and the next step uses both up. -/
theorem step_placeWord {p : Port} {s : State} (hroom : (s.block p).inReady = true) (w : In9) :
    step (placeWord p w s) = exec (decode p w) s := by
  have hplace : placeWord p w s = { s.setSource p (w :: s.source p) with turns := .block p :: s.turns } := by
    simp [placeWord, roomFor, hroom]
  rw [hplace, stepExecutesTheOfferedWord p w (s.source p) s.turns _ rfl
    ((State.withTurns_source _ _ _).trans (State.setSource_source_same _ _ _))
    (by rw [State.withTurns_block, State.setSource_block, hroom])]
  cases p <;> rfl

/-- Settles O41: bit 9 names the same port to `decodeTableWord` and to the placing, and either block has room. -/
theorem placedWordIsExecutedNext : Obligations.PlacedWordIsExecutedNext := by
  intro w s hw henc hdec
  have hroom : ∀ p : Port, (s.block p).inReady = true := by rintro (_ | _) <;> assumption
  refine ⟨_, decodeTableWord_of_lt hw, ?_⟩
  rw [State.withFetchWord, placeTableWord, Nat.mod_eq_of_lt (by omega : w < 2 ^ 16), Nat.mod_eq_of_lt hw]
  exact step_placeWord (hroom _) _

end Sys2Proof
end

