-- ==== Sys2Proof/Proofs/TraceNotation.lean ====
section
/-! Trace lines (R61) and pseudo-operations (R62): what a line is, and what a pseudo-operation expands to. The expansion of a packet
is that of its channels' streams, one after the other (`packet_expands`). -/

namespace Sys2Proof.Machine

/-! ### Lines (R61) -/

theorem lineOp_byte (m : Mnemonic) {n : Nat} (h : n < 256) :
    lineOp ⟨m, .byte n⟩ = some (mnemonicOp m (BitVec.ofNat 8 n)) := by
  simp [lineOp, TraceLine.wf, traceByte, h]

theorem lineOp_delta {e : Int} (h₀ : -128 ≤ e) (h₁ : e ≤ 127) : lineOp ⟨.decNext, .delta e⟩ = some (.decNext (tc8 e)) := by
  simp [lineOp, TraceLine.wf, traceByte, mnemonicOp, h₀, h₁]

theorem encode_ofNat {n : Nat} (h : n < 256) :
    encode (.encFirst (BitVec.ofNat 8 n)) = (.encoder, BitVec.ofNat 9 (0x100 + n)) ∧
    encode (.encNext (BitVec.ofNat 8 n)) = (.encoder, BitVec.ofNat 9 n) ∧
    encode (.decFirst (BitVec.ofNat 8 n)) = (.decoder, BitVec.ofNat 9 (0x100 + n)) ∧
    encode (.decNext (BitVec.ofNat 8 n)) = (.decoder, BitVec.ofNat 9 n) := by
  simp only [encode, BitVec.toNat_ofNat, Nat.mod_eq_of_lt h, and_self]

/-! ### Pseudo-operations (R62) -/

theorem expand_of_wf_false {o : PseudoOp} (h : o.wf = false) : expand o = none := by
  simp [expand, h]

theorem all_nonempty_iff {cs : List (List Byte)} : (cs.all fun c => !c.isEmpty) = true ↔ [] ∉ cs := by
  simp only [List.all_eq_true, Bool.not_eq_true', List.isEmpty_eq_false_iff]
  exact ⟨fun h hmem => h [] hmem rfl, fun h c hc hnil => h (hnil ▸ hc)⟩

theorem packet_wf_false {cs : List (List Byte)} (h : [] ∈ cs) :
    PseudoOp.wf (.encPacket cs) = false ∧ PseudoOp.wf (.decPacket cs) = false := by
  have hall : (cs.all fun c => !c.isEmpty) = false := Bool.eq_false_iff.mpr fun hall => all_nonempty_iff.mp hall h
  exact ⟨hall, hall⟩

theorem expand_encStream {s : List Byte} (h : s ≠ []) :
    expand (.encStream s) = some ((streamOps .encoder s).map .op) := by
  simp [expand, PseudoOp.wf, h]

theorem expand_decStream {s : List Byte} (h : s ≠ []) :
    expand (.decStream s) = some ((streamOps .decoder s).map .op) := by
  simp [expand, PseudoOp.wf, h]

theorem expand_encPacket {cs : List (List Byte)} (h : [] ∉ cs) :
    expand (.encPacket cs) = some ((cs.flatMap (streamOps .encoder)).map .op) :=
  if_pos (all_nonempty_iff.mpr h)

theorem expand_decPacket {cs : List (List Byte)} (h : [] ∉ cs) :
    expand (.decPacket cs) = some ((cs.flatMap (streamOps .decoder)).map .op) :=
  if_pos (all_nonempty_iff.mpr h)

/-- A packet is its channels' streams, one after the other. -/
theorem packet_expands {stream : List Byte → PseudoOp} {p : Port} {cs : List (List Byte)}
    (hstream : ∀ s : List Byte, s ≠ [] → expand (stream s) = some ((streamOps p s).map .op)) (h : [] ∉ cs) :
    ∃ es : List (List TraceStep), cs.map (fun c => expand (stream c)) = es.map some ∧
      (cs.flatMap (streamOps p)).map .op = es.flatten := by
  refine ⟨cs.map fun c => (streamOps p c).map .op, ?_, ?_⟩
  · rw [List.map_map]
    exact List.map_congr_left fun c hc => hstream c (fun hnil => h (hnil ▸ hc))
  · rw [List.map_flatMap, List.flatMap_def]

/-- `RESET` is one edge with `rst = 1`, which no other pin changes (R62, R170). -/
theorem edgeTurn_of_rst {p : Port} {pins : PinsIn} (h : pins.rst = true) (s : State) :
    edgeTurn p pins s = .next (s.resetPort p) := if_pos h

/-- Settles O60: lines, streams, packets channel by channel, `RESET`, and the number of an output beat as its word. -/
theorem traceNotationExpandsAsStated : Obligations.TraceNotationExpandsAsStated := by
  refine ⟨fun n hn => ?_, fun _ => lineOp_delta, fun b bs => ⟨?_, ?_⟩, expand_of_wf_false rfl, expand_of_wf_false rfl,
    fun cs => ⟨fun hmem => ?_, fun hmem => ?_⟩, fun p => ⟨rfl, rfl, fun pins s hrst => (edgeTurn_of_rst hrst s).symm⟩,
    fun b => (OutBeat.word_toNat b).symm⟩
  · obtain ⟨hencFirst, hencNext, hdecFirst, hdecNext⟩ := encode_ofNat hn
    exact ⟨⟨lineOp_byte .encFirst hn, hencFirst⟩, ⟨lineOp_byte .encNext hn, hencNext⟩,
      ⟨lineOp_byte .decFirst hn, hdecFirst⟩, ⟨lineOp_byte .decNext hn, hdecNext⟩⟩
  · simp [expand_encStream, streamOps, decodeBeat]
  · simp [expand_decStream, streamOps, decodeBeat]
  · obtain ⟨henc, hdec⟩ := packet_wf_false hmem
    exact ⟨expand_of_wf_false henc, expand_of_wf_false hdec⟩
  · obtain ⟨es, hes, henc⟩ := packet_expands (fun _ => expand_encStream) hmem
    obtain ⟨ds, hds, hdec⟩ := packet_expands (fun _ => expand_decStream) hmem
    exact ⟨es, ds, hes, henc ▸ expand_encPacket hmem, hds, hdec ▸ expand_decPacket hmem⟩

end Sys2Proof.Machine
end

