-- ==== Sys2Proof/Proofs/Handshake.lean ====
section
/-! One edge without reset (R60). `edgeTurn_spec` says once what it leaves of the block: the beat taken is gone from the head of the
queue, every beat that stays is one edge older, and an accepted word's beat follows with age 0. -/

namespace Sys2Proof.Machine

/-! ### The pins -/

theorem edgeTakes_iff {p : Port} {pins : PinsIn} (h : pins.rst = false) (b : Block) :
    edgeTakes p pins b = true ↔ (outPins p false b).outValid = true ∧ pins.outReady = true := by
  rw [edgeTakes, h, Bool.and_eq_true]

theorem edgeAccepts_iff {p : Port} {pins : PinsIn} (h : pins.rst = false) (b : Block) :
    edgeAccepts p pins b = true ↔ (outPins p false b).inReady = true ∧ pins.inValid = true := by
  rw [edgeAccepts, h, Bool.and_eq_true]

theorem outPins_inReady_iff (p : Port) (b : Block) :
    (outPins p false b).inReady = true ↔ b.outq.length < Config.qdepth := by
  simp [outPins, Block.inReady]

theorem outPins_outValid_iff (p : Port) (b : Block) :
    (outPins p false b).outValid = true ↔ ∃ e ∈ b.outq, Config.lat ≤ e.age := by
  simp [outPins, Block.outValid]

/-- While `out_valid = 1` the output pins show the head of `outq`. -/
theorem outPins_of_valid {p : Port} {b : Block} {e : QEntry} {es : List QEntry} (hq : b.outq = e :: es)
    (h : (outPins p false b).outValid = true) :
    (outPins p false b).outErr = e.beat.err ∧ (outPins p false b).outFirst = e.beat.first ∧
      (outPins p false b).outData = e.beat.data := by
  have hvalid : b.outValid = true := h
  simp [outPins, Block.shown, hvalid, hq]

/-! ### The edge -/

/-- How many beats an edge takes: the head of `outq`, or none. -/
def edgeTakenCount (p : Port) (pins : PinsIn) (b : Block) : Nat := (edgeTakes p pins b).toNat

/-- The operations an edge executes: that of the word on the pins, or none. -/
def edgeOps (p : Port) (pins : PinsIn) (b : Block) : List Instr :=
  if edgeAccepts p pins b then [decode p pins.word] else []

theorem takeHead_block (p : Port) (s : State) :
    (s.takeHead p).block p = { s.block p with outq := (s.block p).outq.drop 1 } := by
  cases h : (s.block p).outq with
  | nil => rw [takeHead_nil h, List.drop_nil, ← h]
  | cons e es => simp [takeHead_cons h]

theorem takeHead_taken (p : Port) (s : State) : (s.takeHead p).taken p = s.taken p ++ (s.block p).beats.take 1 := by
  cases h : (s.block p).outq with
  | nil => simp [takeHead_nil h, Block.beats, h]
  | cons e es => simp [takeHead_cons h, Block.beats, h]

/-- Before a word is accepted the beat taken leaves the queue, and every beat that stays grows one edge older. -/
theorem edgeSettles_spec (p : Port) (pins : PinsIn) (s : State) :
    (edgeSettles p pins s).block p = { s.block p with
      outq := ((s.block p).outq.drop (edgeTakenCount p pins (s.block p))).map (fun e => { e with age := e.age + 1 }) } ∧
    (edgeSettles p pins s).taken p = s.taken p ++ (s.block p).beats.take (edgeTakenCount p pins (s.block p)) := by
  cases h : edgeTakes p pins (s.block p) with
  | false => simp [edgeSettles, edgeTakenCount, h, Block.tick]
  | true => simp [edgeSettles, edgeTakenCount, h, takeHead_block, takeHead_taken, Block.tick]

/-- Then the accepted word's operation, if any, executes entirely (R39). -/
theorem edgeTurn_runs {p : Port} {pins : PinsIn} (h : pins.rst = false) (s : State) :
    ∃ t, edgeTurn p pins s = .next t ∧ t.taken p = (edgeSettles p pins s).taken p ∧
      t.block p = runBlock (edgeOps p pins (s.block p)) ((edgeSettles p pins s).block p) := by
  cases ha : edgeAccepts p pins (s.block p) with
  | false => exact ⟨_, by rw [edgeTurn, h, ha]; rfl, rfl, by simp [edgeOps, ha]⟩
  | true => exact ⟨_, by rw [edgeTurn, h, ha]; exact acceptWord_eq _ _ _, by simp, by simp [edgeOps, ha]⟩

/-- Everything an edge without reset does to its block and sink. -/
theorem edgeTurn_spec {p : Port} {pins : PinsIn} (h : pins.rst = false) (s : State) :
    ∃ t, edgeTurn p pins s = .next t ∧
      t.taken p = s.taken p ++ (s.block p).beats.take (edgeTakenCount p pins (s.block p)) ∧
      t.block p = { runBlock (edgeOps p pins (s.block p)) (s.block p) with
        outq := ((s.block p).outq.drop (edgeTakenCount p pins (s.block p))).map (fun e => { e with age := e.age + 1 }) ++
          (runBeats (edgeOps p pins (s.block p)) (s.block p)).map (fun x => { beat := x, age := 0 }) } := by
  obtain ⟨hblock, htaken⟩ := edgeSettles_spec p pins s
  obtain ⟨t, ht, httaken, htblock⟩ := edgeTurn_runs h s
  exact ⟨t, ht, httaken.trans htaken, by rw [htblock, hblock, runBlock_withOutq]⟩

/-- Ageing changes no beat. -/
theorem Block.beats_aged_append (b c : Block) (k : Nat) (new : List OutBeat) :
    ({ c with outq := (b.outq.drop k).map (fun e => { e with age := e.age + 1 }) ++
        new.map (fun x => { beat := x, age := 0 }) } : Block).beats = b.beats.drop k ++ new := by
  simp [Block.beats, Function.comp_def]

/-- A beat is taken only where `out_valid = 1`, and then the queue is not empty. -/
theorem edgeTakenCount_le (p : Port) (pins : PinsIn) (b : Block) : edgeTakenCount p pins b ≤ b.outq.length := by
  unfold edgeTakenCount
  cases h : edgeTakes p pins b with
  | false => exact Nat.zero_le _
  | true =>
    rw [edgeTakes, Bool.and_eq_true] at h
    obtain ⟨hvalid, -⟩ := h
    cases hq : b.outq with
    | nil => simp [outPins, Block.outValid, hq] at hvalid
    | cons e es => simp

/-- Settles O35: the beats taken and the beats appended are those of `edgeTurn_spec`, and each clause is a case of `edgeTakes` or
`edgeAccepts`. -/
theorem edgeFollowsTheHandshake : Obligations.EdgeFollowsTheHandshake := by
  intro p pins s hrst
  obtain ⟨t, ht, htaken, hblock⟩ := edgeTurn_spec hrst s
  have hgone : ((s.block p).beats.take (edgeTakenCount p pins (s.block p))).length = edgeTakenCount p pins (s.block p) := by
    simpa [Block.beats] using edgeTakenCount_le p pins (s.block p)
  refine ⟨outPins_inReady_iff p _, outPins_outValid_iff p _, t, _, _, runBeats (edgeOps p pins (s.block p)) (s.block p), ht,
    exec_eq _ s, htaken, ?_, ?_, ?_, ?_, ?_, ?_⟩
  · rw [hblock, Block.beats_aged_append, ← List.append_assoc, List.take_append_drop]
  · rw [hgone, hblock]
    simp [Function.comp_def]
  · intro htakes
    rw [hgone, edgeTakenCount, (edgeTakes_iff hrst _).mpr htakes]
    exact ⟨rfl, rfl⟩
  · intro hnot
    rw [edgeTakenCount, Bool.eq_false_iff.mpr (mt (edgeTakes_iff hrst _).mp hnot)]
    rfl
  · intro haccepts
    rw [hblock, decode_port, State.setBlock_block_same, edgeOps, if_pos ((edgeAccepts_iff hrst _).mpr haccepts)]
    exact ⟨rfl, opBlock_beats _ _, rfl, rfl, rfl⟩
  · intro hnot
    rw [hblock, edgeOps, if_neg (mt (edgeAccepts_iff hrst _).mp hnot)]
    exact ⟨rfl, rfl, rfl, rfl⟩

/-- Settles O36: the head of the queue stays, one edge older, so it is still offered and the pins still show it. -/
theorem offeredBeatIsHeldStable : Obligations.OfferedBeatIsHeldStable := by
  intro p pins s t hrst h hvalid hready
  obtain ⟨u, hu, -, hblock⟩ := edgeTurn_spec hrst s
  obtain rfl : u = t := Host.Outcome.next.inj (hu.symm.trans h)
  have hcount : edgeTakenCount p pins (s.block p) = 0 := by simp [edgeTakenCount, edgeTakes, hready]
  obtain ⟨x, hx, hage⟩ := (outPins_outValid_iff p _).mp hvalid
  have hvalid' : (outPins p false (u.block p)).outValid = true := by
    rw [outPins_outValid_iff, hblock, hcount]
    exact ⟨{ x with age := x.age + 1 }, List.mem_append_left _ (List.mem_map_of_mem hx), Nat.le_succ_of_le hage⟩
  cases hq : (s.block p).outq with
  | nil => rw [hq] at hx; cases hx
  | cons e es =>
    rw [hcount, hq] at hblock
    obtain ⟨herr, hfirst, hdata⟩ := outPins_of_valid hq hvalid
    obtain ⟨herr', hfirst', hdata'⟩ := outPins_of_valid (congrArg Block.outq hblock) hvalid'
    exact ⟨hvalid', herr'.trans herr.symm, hfirst'.trans hfirst.symm, hdata'.trans hdata.symm⟩

end Sys2Proof.Machine
end

