-- ==== Sys2Proof/Proofs/RoundTrip.lean ====
section
/-! The decoder on what the encoder emits: the sum of each DEC.NEXT is the encoder's reconstructed value, a byte, so no sum is bad and
the decoder's samples are `rec(s)` (R75, R97). -/

namespace Sys2Proof.Machine

/-! ### Decoding what the encoder emits (R97) -/

theorem clampDelta_range (v : Int) : -128 ≤ clampDelta v ∧ clampDelta v ≤ 127 := by
  rcases clampDelta_cases v with h | h | h <;> omega

/-- The reconstructed value lies between the predictor and the sample, so it is a byte (R75). -/
theorem reconstructed_range (prev x : Byte) : 0 ≤ reconstructed prev x ∧ reconstructed prev x ≤ 255 := by
  have hprev := unsigned_range prev
  have hx := unsigned_range x
  have hdelta : rawDelta prev x = unsigned x - unsigned prev := rfl
  rw [reconstructed_eq_add]
  rcases clampDelta_cases (rawDelta prev x) with h | h | h <;> omega

/-- The sum of a decoder that holds the encoder's predictor is the encoder's reconstructed value. -/
theorem decodeSum_emitted (prev x : Byte) :
    decodeSum prev (tc8 (clampDelta (rawDelta prev x))) = reconstructed prev x := by
  obtain ⟨hlo, hhi⟩ := clampDelta_range (rawDelta prev x)
  rw [decodeSum, s8_tc8 hlo hhi, reconstructed_eq_add]

theorem nextDec_emitted (prev x : Byte) : nextDec prev (tc8 (clampDelta (rawDelta prev x))) = nextRec prev x := by
  obtain ⟨hlo, hhi⟩ := reconstructed_range prev x
  rw [nextDec, decodeSum_emitted, nextRec_eq]
  exact congrArg toByte (clamp_of_mem hlo hhi)

theorem sumOutOfRange_emitted (prev x : Byte) :
    sumOutOfRange (decodeSum prev (tc8 (clampDelta (rawDelta prev x)))) = false := by
  have hrange := reconstructed_range prev x
  rw [decodeSum_emitted, sumOutOfRange, decide_eq_false_iff_not]
  omega

theorem decFrom_encFrom (prev : Byte) (s : List Byte) : decFrom prev (encFrom prev s) = recFrom prev s := by
  induction s generalizing prev with
  | nil => rfl
  | cons x s ih => rw [encFrom, decFrom, recFrom, nextDec_emitted, ih]

theorem badFrom_encFrom (prev : Byte) (s : List Byte) : badFrom prev (encFrom prev s) = false := by
  induction s generalizing prev with
  | nil => rfl
  | cons x s ih => rw [encFrom, badFrom, sumOutOfRange_emitted, nextDec_emitted, ih, Bool.false_or]

theorem decStream_encStream (s : List Byte) : decStream (encStream s) = recStream s := by
  cases s with
  | nil => rfl
  | cons x s => exact congrArg (x :: ·) (decFrom_encFrom x s)

theorem badStream_encStream (s : List Byte) : badStream (encStream s) = false := by
  cases s with
  | nil => rfl
  | cons x s => exact badFrom_encFrom x s

/-! ### A whole stream on a block -/

/-- ENC.STREAM takes no fault (R73). -/
theorem runBlock_encStream_fault (s : List Byte) (b : Block) : (runBlock (streamOps .encoder s) b).fault = b.fault := by
  cases s with
  | nil => rfl
  | cons x s =>
    obtain ⟨-, -, -, -, hfault⟩ := runEncoder s (Block.startStream x b) rfl
    exact hfault

/-- DEC.STREAM of a conformant stream emits `dec(b)` and takes no fault (R93). -/
theorem runDecoder_decStream {bs : List Byte} (hgood : badStream bs = false) (b : Block) :
    (runBeats (streamOps .decoder bs) b).map OutBeat.data = decStream bs ∧
      (runBlock (streamOps .decoder bs) b).fault = b.fault := by
  cases bs with
  | nil => exact ⟨rfl, rfl⟩
  | cons x bs =>
    obtain ⟨hdata, -, -, hfault⟩ := runDecoder bs (Block.startStream x b) rfl
    exact ⟨congrArg (x :: ·) hdata, hfault.trans (if_neg (Bool.eq_false_iff.mp hgood))⟩

end Sys2Proof.Machine
end

