-- ==== Sys2Proof/Proofs/Loopback.lean ====
section
/-! The encoder's beats carried over the wire to the decoder (R52). One round carries one word all the way (`loopRound`); the rounds of
a list of words run its operations on the encoder and, of the beats they append, the operations on the decoder (`loopRounds`). For a
stream these are ENC.STREAM of `s` and DEC.STREAM of `enc(s)`. -/

namespace Sys2Proof.Machine

/-! ### The wire (R52) -/

/-- The operation on the decoder of a beat that the wire carries: `first` and `data` go on, `err` does not. -/
def wireOp (x : OutBeat) : Instr := decodeBeat .decoder { first := x.first, data := x.data }

theorem forwardTurn_cons {s : State} {e : QEntry} {es : List QEntry} (h : s.enc.outq = e :: es) :
    forwardTurn s = offerWord .decoder (InBeat.word { first := e.beat.first, data := e.beat.data })
      ((s.setBlock .encoder { s.enc with outq := es }).setTaken .encoder (s.encTaken ++ [e.beat])) := by
  rw [forwardTurn, takeHead_cons (p := .encoder) h, h]
  rfl

/-- The wire carries the beats of ENC.STREAM as DEC.STREAM of the bytes emitted: the first one marked, and no later one. -/
theorem map_wireOp_encStream (s : List Byte) (b : Block) :
    (runBeats (streamOps .encoder s) b).map wireOp = streamOps .decoder (encStream s) := by
  cases s with
  | nil => rfl
  | cons x s =>
    obtain ⟨(hdata : _ = encFrom x s), -⟩ := runEncoder s (Block.startStream x b) rfl
    have hnext : ∀ y ∈ runBeats (s.map .encNext) (Block.startStream x b), wireOp y = .decNext y.data := by
      intro y hy
      have hmem : y.first ∈ (s.map Instr.encNext).map Instr.isFirst := by
        rw [← runBeats_first]
        exact List.mem_map_of_mem hy
      obtain ⟨-, hfirst⟩ : (∃ z, z ∈ s) ∧ y.first = false := by simpa [Instr.isFirst] using hmem
      rw [wireOp, hfirst]
      rfl
    refine congrArg (Instr.decFirst x :: ·) ?_
    calc _ = (runBeats (s.map .encNext) (Block.startStream x b)).map (fun y => Instr.decNext y.data) :=
          List.map_congr_left hnext
      _ = (encFrom x s).map .decNext := by rw [← hdata, List.map_map, Function.comp_def]

/-! ### Steps of the agents, and runs of steps -/

theorem inReady_of_outq_nil {b : Block} (h : b.outq = []) : b.inReady = true := by
  simp [Block.inReady, h, Config.qdepth]

/-- The step of a block that has a word offered, which selects the operation `i`, and room for its beat. -/
theorem step_block {p : Port} {i : Instr} {w : In9} {ws : List In9} {ts : List Turn} {s : State} (hi : decode p w = i)
    (hturns : s.turns = .block p :: ts) (hw : s.source p = w :: ws) (hroom : (s.block p).inReady = true) :
    step s = .next ((({ s with turns := ts } : State).setSource p ws).setBlock p (opBlock i (s.block p))) := by
  rw [stepExecutesTheOfferedWord p w ws ts s hturns hw hroom, exec_eq, decode_port, State.setSource_block,
    State.withTurns_block, hi]

/-- The step of the wire. -/
theorem step_forward {e : QEntry} {es : List QEntry} {ts : List Turn} {s : State} (hturns : s.turns = .forward :: ts)
    (hq : s.enc.outq = e :: es) :
    step s = .next (offerWord .decoder (InBeat.word { first := e.beat.first, data := e.beat.data })
      ((({ s with turns := ts } : State).setBlock .encoder { s.enc with outq := es }).setTaken .encoder
        (s.encTaken ++ [e.beat]))) :=
  (step_of_turns hturns).trans (congrArg Host.Outcome.next (forwardTurn_cons hq))

/-- The step of a sink whose block has a beat pending. -/
theorem step_sink {p : Port} {e : QEntry} {es : List QEntry} {ts : List Turn} {s : State}
    (hturns : s.turns = .sink p :: ts) (hq : (s.block p).outq = e :: es) :
    step s = .next ((({ s with turns := ts } : State).setBlock p { s.block p with outq := es }).setTaken p
      (s.taken p ++ [e.beat])) := by
  rw [step_of_turns hturns, takeTurn, takeHead_cons (by rwa [State.withTurns_block]), State.withTurns_block,
    State.withTurns_taken]

theorem run_succ {M : Host.Core} {s t : M.State} (h : M.step s = .next t) (n : Nat) : M.run (n + 1) s = M.run n t := by
  rw [Host.Core.run, h]

/-- `run_succ` of this machine, in terms of its own step. -/
theorem run_of_step {s t : State} (h : step s = .next t) (n : Nat) :
    Host.Core.run Sys2Proof.core (n + 1) s = Host.Core.run Sys2Proof.core n t := run_succ (M := Sys2Proof.core) h n

theorem run_add {n : Nat} {s t : State} (h : Host.Core.run Sys2Proof.core n s = .next t) (k : Nat) :
    Host.Core.run Sys2Proof.core (n + k) s = Host.Core.run Sys2Proof.core k t := by
  induction n generalizing s with
  | zero =>
    cases h
    rw [Nat.zero_add]
  | succ n ih =>
    obtain ⟨u, hstep, hrun⟩ := run_succ_next h
    rw [Nat.add_right_comm, run_of_step hstep, ih hrun]

/-! ### Rounds -/

/-- Both ports at rest: nothing offered and nothing pending. -/
structure State.AtRest (s : State) : Prop where
  encSource : s.encSource = []
  decSource : s.decSource = []
  encOutq : s.enc.outq = []
  decOutq : s.dec.outq = []

/-- The moves that carry one word all the way. -/
def loopTurns (w : In9) : List Turn := [.offer .encoder w, .block .encoder, .forward, .block .decoder, .sink .decoder]

/-- The state after one round. -/
def loopResult (i : Instr) (ts : List Turn) (s : State) : State :=
  { s with
    enc := { opBlock i s.enc with outq := [] }
    dec := { opBlock (wireOp (newBeat i s.enc)) s.dec with outq := [] }
    encTaken := s.encTaken ++ [newBeat i s.enc]
    decTaken := s.decTaken ++ [newBeat (wireOp (newBeat i s.enc)) s.dec]
    turns := ts }

/-- One round: the word is offered and encoded, its beat carried over the wire, decoded, and taken. -/
theorem loopRound {w : In9} {ts : List Turn} {s : State} (hrest : s.AtRest) (hturns : s.turns = loopTurns w ++ ts) :
    Host.Core.run Sys2Proof.core 5 s = .next (loopResult (decode .encoder w) ts s) := by
  obtain ⟨enc, dec, encSource, decSource, encTaken, decTaken, host, turns⟩ := s
  obtain ⟨hes, hds, heq, hdq⟩ := hrest
  dsimp only at hes hds heq hdq hturns
  subst hes hds hturns
  have hencq : (opBlock (decode .encoder w) enc).outq = [⟨newBeat (decode .encoder w) enc, 0⟩] := by
    rw [opBlock_outq, heq, List.nil_append]
  generalize hx : newBeat (decode .encoder w) enc = x at hencq
  have hdecode : decode .decoder (InBeat.word ⟨x.first, x.data⟩) = wireOp x := decode_word _ _
  have hdecq : (opBlock (wireOp x) dec).outq = [⟨newBeat (wireOp x) dec, 0⟩] := by
    rw [opBlock_outq, hdq, List.nil_append]
  calc Host.Core.run Sys2Proof.core 5 (⟨enc, dec, [], [], encTaken, decTaken, host, loopTurns w ++ ts⟩ : State)
    _ = Host.Core.run Sys2Proof.core 4 (⟨enc, dec, [w], [], encTaken, decTaken, host,
          [.block .encoder, .forward, .block .decoder, .sink .decoder] ++ ts⟩ : State) := run_of_step rfl 4
    _ = Host.Core.run Sys2Proof.core 3 (⟨opBlock (decode .encoder w) enc, dec, [], [], encTaken, decTaken, host,
          [.forward, .block .decoder, .sink .decoder] ++ ts⟩ : State) :=
      run_of_step (step_block (p := .encoder) rfl rfl rfl (by exact inReady_of_outq_nil heq)) 3
    _ = Host.Core.run Sys2Proof.core 2 (⟨{ opBlock (decode .encoder w) enc with outq := [] }, dec, [],
          [InBeat.word ⟨x.first, x.data⟩], encTaken ++ [x], decTaken, host,
          [.block .decoder, .sink .decoder] ++ ts⟩ : State) :=
      run_of_step (step_forward (e := ⟨x, 0⟩) rfl (by exact hencq)) 2
    _ = Host.Core.run Sys2Proof.core 1 (⟨{ opBlock (decode .encoder w) enc with outq := [] }, opBlock (wireOp x) dec, [],
          [], encTaken ++ [x], decTaken, host, [.sink .decoder] ++ ts⟩ : State) :=
      run_of_step (step_block (p := .decoder) hdecode rfl rfl (by exact inReady_of_outq_nil hdq)) 1
    _ = .next ⟨{ opBlock (decode .encoder w) enc with outq := [] }, { opBlock (wireOp x) dec with outq := [] }, [],
          [], encTaken ++ [x], decTaken ++ [newBeat (wireOp x) dec], host, ts⟩ :=
      run_of_step (step_sink (p := .decoder) (e := ⟨_, 0⟩) rfl (by exact hdecq)) 0
    _ = _ := by subst hx; rfl

/-- The rounds of a list of words: the encoder runs their operations, and the decoder those that the wire carries. -/
theorem loopRounds (ws : List In9) {s : State} (hrest : s.AtRest) (hturns : s.turns = ws.flatMap loopTurns) :
    ∃ t, Host.Core.run Sys2Proof.core (5 * ws.length) s = .next t ∧ t.AtRest ∧ t.turns = [] ∧
      t.enc.fault = (runBlock (ws.map (decode .encoder)) s.enc).fault ∧
      t.dec.fault = (runBlock ((runBeats (ws.map (decode .encoder)) s.enc).map wireOp) s.dec).fault ∧
      t.decTaken = s.decTaken ++ runBeats ((runBeats (ws.map (decode .encoder)) s.enc).map wireOp) s.dec := by
  induction ws generalizing s with
  | nil => exact ⟨s, rfl, hrest, hturns, rfl, rfl, (List.append_nil _).symm⟩
  | cons w ws ih =>
    have hround := loopRound hrest (hturns.trans List.flatMap_cons)
    obtain ⟨hes, hds, -, -⟩ := hrest
    obtain ⟨t, ht, htrest, htturns, henc, hdec, htaken⟩ :=
      ih (s := loopResult (decode .encoder w) (ws.flatMap loopTurns) s) ⟨hes, hds, rfl, rfl⟩ rfl
    simp only [loopResult, runBeats_withOutq, runBlock_withOutq] at henc hdec htaken
    refine ⟨t, ?_, htrest, htturns, henc, hdec, ?_⟩
    · rw [List.length_cons, Nat.mul_succ, Nat.add_comm, run_add hround, ht]
    · simp [htaken]

/-- A run that is at rest with no move to come has ended at its port, and well if the block took no fault (R181). -/
theorem State.AtRest.goodEnd {s : State} (h : s.AtRest) (hturns : s.turns = []) (p : Port)
    (hfault : (s.block p).fault = 0) : s.goodEnd p = true := by
  obtain ⟨hes, hds, heq, hdq⟩ := h
  cases p with
  | encoder =>
    have herr : errOf s.enc.fault = false := errOf_eq_false.mpr hfault
    simp [State.goodEnd, State.ended, State.source, hturns, hes, heq, herr]
  | decoder =>
    have herr : errOf s.dec.fault = false := errOf_eq_false.mpr hfault
    simp [State.goodEnd, State.ended, State.source, hturns, hds, hdq, herr]

/-- Settles O22: the wire by `forwardTurn_cons`; the rounds run ENC.STREAM of `s` and DEC.STREAM of `enc(s)`, which is conformant and
decodes to `rec(s)`. -/
theorem loopbackDeliversTheReconstructedStream : Obligations.LoopbackDeliversTheReconstructedStream := by
  refine ⟨fun m e es hq => ?_, fun s m _ hef hdf heq hdq hes hds hturns => ?_⟩
  · exact ⟨_, congrArg Host.Outcome.next (forwardTurn_cons hq), rfl, rfl, rfl, rfl⟩
  · obtain ⟨t, ht, hrest, htturns, henc, hdec, htaken⟩ := loopRounds (streamWords s) ⟨hes, hds, heq, hdq⟩ hturns
    rw [decode_streamWords] at henc
    rw [decode_streamWords, map_wireOp_encStream] at hdec htaken
    obtain ⟨hdata, hdecFault⟩ := runDecoder_decStream (badStream_encStream s) m.dec
    have hencEnd : t.enc.fault = 0 := henc.trans ((runBlock_encStream_fault s m.enc).trans hef)
    have hdecRun : (runBlock (streamOps .decoder (encStream s)) m.dec).fault = 0 := hdecFault.trans hdf
    have hlength : (streamWords s).length = s.length := by cases s <;> simp [streamWords]
    rw [hlength] at ht
    exact ⟨t, _, ht, htturns, htaken, hdata.trans (decStream_encStream s),
      runBeats_err_of_unfaulted _ (errOf_eq_false.mpr hdecRun), hrest.goodEnd htturns .encoder hencEnd,
      hrest.goodEnd htturns .decoder (hdec.trans hdecRun)⟩

end Sys2Proof.Machine
end

