-- ==== Sys2Proof/Proofs/EncoderOps.lean ====
section
/-! One operation on its own block (R70, R90), and the two operations of the encoder with their whole next state (R71, R72). The
arithmetic of ENC.NEXT is that of `reconstructed`, said once by its three branches. -/

namespace Sys2Proof.Machine

/-! ### The branches of the reconstructed value (R72) -/

theorem reconstructed_of_gt {prev x : Byte} (h : rawDelta prev x > 127) :
    reconstructed prev x = (prev.toNat : Int) + 127 := if_pos h

theorem reconstructed_of_lt {prev x : Byte} (h : rawDelta prev x < -128) :
    reconstructed prev x = (prev.toNat : Int) - 128 := by
  rw [reconstructed, if_neg (by omega), if_pos h, unsigned]

theorem reconstructed_of_mem {prev x : Byte} (hlo : -128 ≤ rawDelta prev x) (hhi : rawDelta prev x ≤ 127) :
    reconstructed prev x = x.toNat := by
  rw [reconstructed, if_neg (by omega), if_neg (by omega), unsigned]

/-- The narrowing to a byte loses nothing of the reconstructed value (R75). -/
theorem toByte_reconstructed_toNat (prev x : Byte) : ((toByte (reconstructed prev x)).toNat : Int) = reconstructed prev x := by
  obtain ⟨hlo, hhi⟩ := reconstructed_range prev x
  exact toByte_toNat hlo hhi

/-! ### The operations -/

/-- Everything a NEXT of a block that has not been started does: `PROTO`, and a flagged beat (R151). -/
theorem protoNext_eq (p : Port) (b : Block) :
    Block.protoNext p b = { b with
      fault := setFault .proto b.fault
      outq := b.outq ++ [{ beat := { first := false, err := true, data := Config.unspecifiedByte p b.draws }, age := 0 }]
      draws := b.draws + 1 } := by
  rw [Block.protoNext, Block.emit, Block.raise, errOf_setFault]

/-- An operation completes with its own block as `opBlock` gives it, and with all else as it was. -/
theorem exec_of_opBlock {i : Instr} {s : State} {b : Block} (h : opBlock i (s.block i.port) = b) :
    exec i s = .next (s.setBlock i.port b) := by
  rw [exec_eq, h]

/-- Settles O10: an operation is a function of its own block (`exec_eq`), which appends one beat (`opBlock_outq`). -/
theorem everyOperationAppendsOneBeat : Obligations.EveryOperationAppendsOneBeat := by
  intro i s
  refine ⟨s.setBlock i.port (opBlock i (s.block i.port)), (newBeat i (s.block i.port)).data, exec_eq i s, ?_, ?_, ?_⟩
  · rw [State.setBlock_block_same]
  · rw [State.setBlock_block_same]
    exact opBlock_outq i (s.block i.port)
  · intro s' hblock
    rw [State.setBlock_block_same, exec_eq, hblock]

/-- Settles O6: the word is that of the operation (`decode_encode`), and the operation replaces the encoder alone (`exec_eq`). -/
theorem encFirstStartsAStream : Obligations.EncFirstStartsAStream :=
  fun b s => ⟨decode_encode (.encFirst b), exec_eq (.encFirst b) s⟩

/-- Settles O7: with `run = 0` by `protoNext_eq`; with `run = 1` the emitted delta is the clamp of the raw one and the predictor takes
the reconstructed value, each in three branches. -/
theorem encNextEmitsTheSaturatedDelta : Obligations.EncNextEmitsTheSaturatedDelta := by
  intro b s
  refine ⟨decode_encode (.encNext b), fun hidle => ?_, fun hrun => ?_⟩
  · refine ⟨Config.unspecifiedByte .encoder s.enc.draws, s.enc.draws + 1, ?_⟩
    exact exec_of_opBlock (i := .encNext b) ((encodeNext_idle hidle).trans (protoNext_eq .encoder s.enc))
  · refine ⟨rawDelta s.enc.prev b, clampDelta (rawDelta s.enc.prev b), reconstructed s.enc.prev b,
      toByte (reconstructed s.enc.prev b), rfl, fun h => ⟨clamp_of_gt (by decide) h, reconstructed_of_gt h⟩,
      fun h => ⟨clamp_of_lt h, reconstructed_of_lt h⟩, fun hlo hhi => ⟨clamp_of_mem hlo hhi, reconstructed_of_mem hlo hhi⟩,
      rfl, reconstructed_eq_add _ _, toByte_reconstructed_toNat _ _, ?_⟩
    rw [← emittedDelta_eq_clampDelta]
    exact exec_of_opBlock (i := .encNext b) (encodeNext_run hrun)

end Sys2Proof.Machine
end

