-- ==== Sys2Proof/Proofs/EncoderArithmetic.lean ====
section
/-! The arithmetic of ENC.NEXT: the widths (R74), the range of the reconstructed value (R75), and the raw delta that a step leaves for
a next one on the same sample (R77): `rawDelta_nextRec` subtracts what was emitted. -/

namespace Sys2Proof.Machine

theorem rawDelta_range (prev x : Byte) : -255 ≤ rawDelta prev x ∧ rawDelta prev x ≤ 255 := by
  have hprev := unsigned_range prev
  have hx := unsigned_range x
  unfold rawDelta
  omega

/-! ### Nine bits (R74) -/

/-- A byte is its own signed value at nine bits. -/
theorem toInt_setWidth_nine (b : Byte) : (b.setWidth 9).toInt = unsigned b := by
  have hlt := b.isLt
  rw [BitVec.toInt_setWidth]
  exact Int.bmod_eq_of_le (by omega) (by omega)

/-- The nine-bit difference of two bytes does not wrap. -/
theorem toInt_nineBitDelta (prev x : Byte) : (x.setWidth 9 - prev.setWidth 9 : BitVec 9).toInt = rawDelta prev x := by
  obtain ⟨hlo, hhi⟩ := rawDelta_range prev x
  rw [BitVec.toInt_sub, toInt_setWidth_nine, toInt_setWidth_nine]
  exact Int.bmod_eq_of_le (by unfold rawDelta at hlo; omega) (by unfold rawDelta at hhi; omega)

/-- Settles O12: the nine-bit difference has the raw delta as its signed value, and signed comparison compares signed values. -/
theorem encoderArithmeticNeverWraps : Obligations.EncoderArithmeticNeverWraps := by
  refine ⟨fun prev x => ?_, by decide, by decide⟩
  obtain ⟨hdlo, hdhi⟩ := rawDelta_range prev x
  obtain ⟨helo, hehi⟩ := clampDelta_range (rawDelta prev x)
  obtain ⟨hrlo, hrhi⟩ := reconstructed_range prev x
  have hdelta := toInt_nineBitDelta prev x
  rw [emittedDelta_eq_clampDelta]
  refine ⟨hdlo, hdhi, hdelta, ?_, ?_, helo, hehi, hrlo, hrhi, toByte_reconstructed_toNat prev x⟩
  · rw [BitVec.slt, hdelta]
    rfl
  · rw [BitVec.slt, hdelta]
    rfl

/-! ### The reconstructed value (R75) -/

/-- Settles O13: branch by branch; a byte is at most 255, so a clamped step stays strictly between `prev` and the sample. -/
theorem reconstructedValueStaysInRange : Obligations.ReconstructedValueStaysInRange := by
  intro prev x
  obtain ⟨hlo, hhi⟩ := reconstructed_range prev x
  have hprev := prev.isLt
  have hx := x.isLt
  have hdelta : rawDelta prev x = (x.toNat : Int) - prev.toNat := rfl
  refine ⟨fun h => ?_, fun h => ?_, reconstructed_of_mem, hlo, hhi, toByte_reconstructed_toNat prev x⟩
  · have hvalue := reconstructed_of_gt h
    omega
  · have hvalue := reconstructed_of_lt h
    omega

/-! ### The error after a step (R76, R77) -/

theorem unsigned_nextRec (prev x : Byte) : unsigned (nextRec prev x) = reconstructed prev x := by
  rw [nextRec_eq]
  exact toByte_reconstructed_toNat prev x

/-- The raw delta left by a step, if the input stays: what the step did not emit. -/
theorem rawDelta_nextRec (prev x : Byte) :
    rawDelta (nextRec prev x) x = rawDelta prev x - clampDelta (rawDelta prev x) := by
  rw [rawDelta, unsigned_nextRec, reconstructed_eq_add, rawDelta]
  omega

theorem nextRec_of_mem {prev x : Byte} (hlo : -128 ≤ rawDelta prev x) (hhi : rawDelta prev x ≤ 127) :
    nextRec prev x = x := by
  rw [nextRec_eq, reconstructed_of_mem hlo hhi]
  exact toByte_unsigned x

theorem nextRec_self (x : Byte) : nextRec x x = x := by
  have hzero : rawDelta x x = 0 := Int.sub_self _
  exact nextRec_of_mem (by omega) (by omega)

/-- One step leaves a raw delta that the next one emits whole, but from the largest jump upward. -/
theorem rawDelta_nextRec_mem {prev x : Byte} (h : rawDelta prev x ≠ 255) :
    -128 ≤ rawDelta (nextRec prev x) x ∧ rawDelta (nextRec prev x) x ≤ 127 := by
  have hrange := rawDelta_range prev x
  rw [rawDelta_nextRec]
  rcases clampDelta_cases (rawDelta prev x) with hcase | hcase | hcase <;> omega

theorem nextRec_nextRec {prev x : Byte} (h : rawDelta prev x ≠ 255) : nextRec (nextRec prev x) x = x := by
  obtain ⟨hlo, hhi⟩ := rawDelta_nextRec_mem h
  exact nextRec_of_mem hlo hhi

/-- The largest jump upward is clamped twice. -/
theorem rawDelta_nextRec_of_max {prev x : Byte} (h : rawDelta prev x = 255) :
    rawDelta (nextRec prev x) x = 128 ∧ rawDelta (nextRec (nextRec prev x) x) x = 1 := by
  have hfirst : rawDelta (nextRec prev x) x = 128 := by
    rw [rawDelta_nextRec, h]
    decide
  refine ⟨hfirst, ?_⟩
  rw [rawDelta_nextRec, hfirst]
  decide

/-- A constant input is reached by the third step: by the second one, or after the largest jump. -/
theorem nextRec_nextRec_nextRec (prev x : Byte) : nextRec (nextRec (nextRec prev x) x) x = x := by
  by_cases h : rawDelta prev x = 255
  · obtain ⟨-, hsecond⟩ := rawDelta_nextRec_of_max h
    exact nextRec_of_mem (by omega) (by omega)
  · rw [nextRec_nextRec h, nextRec_self]

/-- Settles O15: what a clamped step leaves is the raw delta less the bound (`rawDelta_nextRec`). -/
theorem constantInputIsReachedInThreeSteps : Obligations.ConstantInputIsReachedInThreeSteps := by
  refine ⟨fun prev x => ?_, by decide, by decide⟩
  obtain ⟨hlo, hhi⟩ := rawDelta_range prev x
  have hleft := rawDelta_nextRec prev x
  refine ⟨fun h => ?_, fun h => ?_, fun h => ?_, rawDelta_nextRec_of_max, nextRec_nextRec_nextRec prev x⟩
  · have hclamp : clampDelta (rawDelta prev x) = 127 := clamp_of_gt (by decide) h
    omega
  · have hclamp : clampDelta (rawDelta prev x) = -128 := clamp_of_lt h
    omega
  · obtain ⟨hlo', hhi'⟩ := rawDelta_nextRec_mem h
    exact ⟨hlo', hhi', nextRec_nextRec h⟩

end Sys2Proof.Machine
end

