-- ==== Sys2Proof/Proofs/EncoderStream.lean ====
section
/-! A whole channel stream through the encoder: the recurrence of `enc` and `rec` (R73), streams without a clamped step (R76), and
ENC.STREAM on the machine (R73). -/

namespace Sys2Proof.Machine

/-! ### The recurrence (R73) -/

theorem encStream_zero (s : List Byte) : (encStream s)[0]? = s[0]? := by cases s <;> rfl

theorem recStream_zero (s : List Byte) : (recStream s)[0]? = s[0]? := by cases s <;> rfl

/-- Each position of `enc` and `rec` follows from the sample and the predictor that `rec` left before it. -/
theorem encStream_recStream_step {s : List Byte} {i : Nat} {x p : Byte} (hx : s[i + 1]? = some x) (hp : (recStream s)[i]? = some p) :
    (encStream s)[i + 1]? = some (tc8 (clampDelta (rawDelta p x))) ∧ (recStream s)[i + 1]? = some (nextRec p x) := by
  cases s with
  | nil => cases hx
  | cons y s => exact encFrom_step y s i x p hx hp

theorem recStream_take (s : List Byte) (k : Nat) : recStream (s.take k) = (recStream s).take k := by
  cases s with
  | nil => simp [recStream]
  | cons y s =>
    cases k with
    | zero => rfl
    | succ k => exact congrArg (y :: ·) (recFrom_take y s k)

/-! ### Streams of small differences (R76) -/

/-- All adjacent differences lie in -128..127, by positions. -/
def SmallDifferences (s : List Byte) : Prop :=
  ∀ (i : Nat) (x y : Byte), s[i]? = some x → s[i + 1]? = some y →
    -128 ≤ (y.toNat : Int) - x.toNat ∧ (y.toNat : Int) - x.toNat ≤ 127

theorem smoothFrom_of_smallDifferences {prev : Byte} {s : List Byte} (h : SmallDifferences (prev :: s)) :
    smoothFrom prev s = true := by
  induction s generalizing prev with
  | nil => rfl
  | cons x s ih =>
    have hhead : -128 ≤ rawDelta prev x ∧ rawDelta prev x ≤ 127 := h 0 prev x rfl rfl
    have htail : SmallDifferences (x :: s) := fun i => h (i + 1)
    rw [smoothFrom, ih htail, Bool.and_true]
    exact decide_eq_true hhead

theorem smooth_of_smallDifferences {s : List Byte} (h : SmallDifferences s) : smooth s = true := by
  cases s with
  | nil => rfl
  | cons x s => exact smoothFrom_of_smallDifferences h

theorem recFrom_of_smoothFrom {prev : Byte} {s : List Byte} (h : smoothFrom prev s = true) : recFrom prev s = s := by
  induction s generalizing prev with
  | nil => rfl
  | cons x s ih =>
    obtain ⟨⟨hlo, hhi⟩, hrest⟩ : (-128 ≤ rawDelta prev x ∧ rawDelta prev x ≤ 127) ∧ smoothFrom x s = true := by
      simpa [smoothFrom] using h
    rw [recFrom, nextRec_of_mem hlo hhi, ih hrest]

/-- A stream without a clamped step is reconstructed exactly. -/
theorem recStream_of_smooth {s : List Byte} (h : smooth s = true) : recStream s = s := by
  cases s with
  | nil => rfl
  | cons x s => exact congrArg (x :: ·) (recFrom_of_smoothFrom h)

theorem reconstructed_eq_iff (prev x : Byte) :
    reconstructed prev x = x.toNat ↔ -128 ≤ rawDelta prev x ∧ rawDelta prev x ≤ 127 := by
  have hdelta : rawDelta prev x = (x.toNat : Int) - prev.toNat := rfl
  refine ⟨fun h => ⟨?_, ?_⟩, fun ⟨hlo, hhi⟩ => reconstructed_of_mem hlo hhi⟩
  · by_contra hlt
    have hclamped := reconstructed_of_lt (Int.not_le.mp hlt)
    omega
  · by_contra hgt
    have hclamped := reconstructed_of_gt (Int.not_le.mp hgt)
    omega

/-- Settles O14: without a clamped step `rec(s) = s`, so each delta is that of adjacent samples, and the decoder, which follows
`rec(s)`, gives `s`. -/
theorem smallDifferencesAreEncodedExactly : Obligations.SmallDifferencesAreEncodedExactly := by
  refine ⟨reconstructed_eq_iff, fun s hsmall => ?_, by decide, by decide, by decide⟩
  have hrec : recStream s = s := recStream_of_smooth (smooth_of_smallDifferences hsmall)
  refine ⟨hrec, (decStream_encStream s).trans hrec, fun i x y hx hy => ?_⟩
  obtain ⟨hlo, hhi⟩ := hsmall i x y hx hy
  obtain ⟨henc, -⟩ := encStream_recStream_step hy (hrec.symm ▸ hx)
  rw [henc]
  exact congrArg (fun e => some (tc8 e)) (clamp_of_mem hlo hhi)

/-! ### ENC.STREAM on the encoder (R73) -/

theorem streamOps_isFirst (p : Port) {s : List Byte} (h : s ≠ []) :
    (streamOps p s).map Instr.isFirst = true :: List.replicate (s.length - 1) false := by
  cases s with
  | nil => exact absurd rfl h
  | cons x s => simp [streamOps, decodeBeat_isFirst, Function.comp_def]

theorem streamOps_take (p : Port) (s : List Byte) (k : Nat) : (streamOps p s).take k = streamOps p (s.take k) := by
  cases s with
  | nil => simp [streamOps]
  | cons x s => cases k <;> simp [streamOps, List.map_take]

/-- ENC.STREAM emits `enc(s)` and leaves the encoder running with the last of `rec(s)`. -/
theorem runEncoder_encStream {s : List Byte} (h : s ≠ []) (b : Block) :
    (runBeats (streamOps .encoder s) b).map OutBeat.data = encStream s ∧
      (recStream s).getLast? = some (runBlock (streamOps .encoder s) b).prev ∧
      (runBlock (streamOps .encoder s) b).run = true := by
  cases s with
  | nil => exact absurd rfl h
  | cons x s =>
    obtain ⟨hdata, -, hprev, hrun, -⟩ := runEncoder s (Block.startStream x b) rfl
    refine ⟨congrArg (x :: ·) hdata, ?_, hrun⟩
    rw [recStream, List.getLast?_cons]
    exact congrArg some (List.getLastD_eq_getLast?.symm.trans hprev.symm)

/-- The predictor after `k + 1` operations of ENC.STREAM is `rec(s)[k]`. -/
theorem runEncoder_prev {s : List Byte} {k : Nat} (h : k < s.length) (b : Block) :
    (recStream s)[k]? = some (runBlock ((streamOps .encoder s).take (k + 1)) b).prev := by
  have hne : s.take (k + 1) ≠ [] := by
    rw [Ne, List.take_eq_nil_iff]
    rintro (hk | rfl)
    · cases hk
    · cases h
  obtain ⟨-, hlast, -⟩ := runEncoder_encStream hne b
  rw [recStream_take, List.getLast?_take, if_neg (Nat.succ_ne_zero k), Nat.add_sub_cancel] at hlast
  rw [streamOps_take, ← hlast]
  have hk : k < (recStream s).length := by rwa [recStream_length]
  rw [List.getElem?_eq_getElem hk, Option.some_or]

/-- Settles O17: ENC.STREAM is a run of the encoder's operations (`runEncoder_encStream`, `runEncoder_prev`) that takes no fault, so
it flags no beat; the recurrence is `encStream_recStream_step`. -/
theorem encoderStreamEmitsEncodedChannel : Obligations.EncoderStreamEmitsEncodedChannel := by
  intro s m hne hfault
  have hexec := execAll_samePort (streamOps_port .encoder s) m
  obtain ⟨hdata, hprev, hrun⟩ := runEncoder_encStream hne m.enc
  have hend : (runBlock (streamOps .encoder s) m.enc).fault = 0 := (runBlock_encStream_fault s m.enc).trans hfault
  refine ⟨⟨_, runBeats (streamOps .encoder s) m.enc, hexec, runBlock_beats _ _, hdata, ?_, ?_, encStream_length s, hprev, hrun,
    hend⟩, fun k hk => ?_, recStream_zero s, encStream_zero s, fun i x p hx hp => ?_⟩
  · rw [runBeats_first, streamOps_isFirst .encoder hne]
  · exact runBeats_err_of_unfaulted _ (errOf_eq_false.mpr hend)
  · have hports : ∀ j ∈ (streamOps .encoder s).take (k + 1), j.port = .encoder :=
      fun j hj => streamOps_port .encoder s j (List.mem_of_mem_take hj)
    exact ⟨_, execAll_samePort hports m, runEncoder_prev hk m.enc⟩
  · obtain ⟨henc, hrec⟩ := encStream_recStream_step hx hp
    refine ⟨henc, nextRec p x, hrec, ?_⟩
    exact (unsigned_nextRec p x).trans (reconstructed_eq_add p x)

end Sys2Proof.Machine
end

