-- ==== Sys2Proof/Proofs/DecoderOps.lean ====
section
/-! The two operations of the decoder with their whole next state (R91, R92), and the widths of DEC.NEXT (R94): the sum fits ten bits,
and the emitted sample is its saturation to a byte. -/

namespace Sys2Proof.Machine

/-! ### The sum and the sample (R92) -/

theorem sumOutOfRange_eq_false_iff (v : Int) : sumOutOfRange v = false ↔ 0 ≤ v ∧ v ≤ 255 := by
  rw [sumOutOfRange, decide_eq_false_iff_not]
  omega

/-- The narrowing to a byte loses nothing of the saturated sum. -/
theorem nextDec_toNat (prev x : Byte) : ((nextDec prev x).toNat : Int) = clampToUint8 (decodeSum prev x) := by
  obtain ⟨hlo, hhi⟩ := clampToUint8_range (decodeSum prev x)
  exact toByte_toNat hlo hhi

theorem nextDec_toNat_of_mem {prev x : Byte} (hlo : 0 ≤ decodeSum prev x) (hhi : decodeSum prev x ≤ 255) :
    ((nextDec prev x).toNat : Int) = decodeSum prev x :=
  (nextDec_toNat prev x).trans (clamp_of_mem hlo hhi)

/-! ### The operations -/

/-- `fault` after the range test of DEC.NEXT. -/
def faultAfterSum (sum : Int) (f : FaultBits) : FaultBits := if sumOutOfRange sum then setFault .invalidData f else f

theorem faultAfterSum_of_bad {sum : Int} (h : sum < 0 ∨ sum > 255) (f : FaultBits) :
    faultAfterSum sum f = f ||| 0b10#2 := if_pos ((sumOutOfRange_iff sum).mpr h)

theorem faultAfterSum_of_mem {sum : Int} (hlo : 0 ≤ sum) (hhi : sum ≤ 255) (f : FaultBits) : faultAfterSum sum f = f :=
  if_neg (Bool.eq_false_iff.mp ((sumOutOfRange_eq_false_iff sum).mpr ⟨hlo, hhi⟩))

/-- Everything a DEC.NEXT of a running block does. -/
theorem decodeNext_run_eq {p : Port} {x : Byte} {b : Block} (h : b.run = true) :
    Block.decodeNext p x b = { b with
      prev := nextDec b.prev x
      fault := faultAfterSum (decodeSum b.prev x) b.fault
      outq := b.outq ++ [{ beat := { first := false, err := errOf (faultAfterSum (decodeSum b.prev x) b.fault),
                                     data := nextDec b.prev x }, age := 0 }] } := by
  rw [decodeNext_run h, checkSum_eq]
  rfl

/-- Settles O8: the word is that of the operation (`decode_encode`), and the operation replaces the decoder alone (`exec_eq`). -/
theorem decFirstStartsAStream : Obligations.DecFirstStartsAStream :=
  fun b s => ⟨decode_encode (.decFirst b), exec_eq (.decFirst b) s⟩

/-- Settles O9: with `run = 0` by `protoNext_eq`; with `run = 1` by `decodeNext_run_eq`, the sample and `fault` each by the three
places the sum can lie in. -/
theorem decNextEmitsTheSaturatedSum : Obligations.DecNextEmitsTheSaturatedSum := by
  intro b s
  refine ⟨decode_encode (.decNext b), fun hidle => ?_, fun hrun => ?_⟩
  · refine ⟨Config.unspecifiedByte .decoder s.dec.draws, s.dec.draws + 1, ?_⟩
    exact exec_of_opBlock (i := .decNext b) ((decodeNext_idle hidle).trans (protoNext_eq .decoder s.dec))
  · have hsample := nextDec_toNat s.dec.prev b
    refine ⟨decodeSum s.dec.prev b, nextDec s.dec.prev b, faultAfterSum (decodeSum s.dec.prev b) s.dec.fault, rfl,
      fun h => ⟨?_, faultAfterSum_of_bad (.inl h) _⟩, fun h => ⟨?_, faultAfterSum_of_bad (.inr h) _⟩,
      fun hlo hhi => ⟨nextDec_toNat_of_mem hlo hhi, faultAfterSum_of_mem hlo hhi _⟩,
      exec_of_opBlock (i := .decNext b) (decodeNext_run_eq hrun)⟩
    · have hzero : clampToUint8 (decodeSum s.dec.prev b) = 0 := clamp_of_lt h
      omega
    · have hmax : clampToUint8 (decodeSum s.dec.prev b) = 255 := clamp_of_gt (by decide) h
      omega

/-! ### Ten bits (R94) -/

theorem decodeSum_range (prev x : Byte) : -128 ≤ decodeSum prev x ∧ decodeSum prev x ≤ 382 := by
  have hprev := unsigned_range prev
  have hx := s8_range x
  unfold decodeSum
  omega

/-- A byte is its own signed value at ten bits. -/
theorem toInt_setWidth_ten (b : Byte) : (b.setWidth 10).toInt = unsigned b := by
  have hlt := b.isLt
  rw [BitVec.toInt_setWidth]
  exact Int.bmod_eq_of_le (by omega) (by omega)

/-- The ten-bit sum of a byte and a sign-extended delta does not wrap. -/
theorem toInt_tenBitSum (prev x : Byte) : (prev.setWidth 10 + x.signExtend 10 : BitVec 10).toInt = decodeSum prev x := by
  obtain ⟨hlo, hhi⟩ := decodeSum_range prev x
  rw [BitVec.toInt_add, toInt_setWidth_ten, BitVec.toInt_signExtend_of_le (by decide), ← s8_eq_toInt]
  exact Int.bmod_eq_of_le (by unfold decodeSum at hlo; omega) (by unfold decodeSum at hhi; omega)

/-- Of the values a sum can take, those above 255 are the ones with `01` in the upper two of ten bits. -/
theorem upperBits_eq_one_iff {w : BitVec 10} (hlo : -256 ≤ w.toInt) : w.extractLsb' 8 2 = 0b01#2 ↔ w.toInt > 255 := by
  have hlt := w.isLt
  rw [BitVec.toInt_eq_toNat_cond] at hlo ⊢
  rw [← BitVec.toNat_inj, BitVec.extractLsb'_toNat, Nat.shiftRight_eq_div_pow, BitVec.toNat_ofNat]
  split at hlo <;> omega

/-- Settles O16: the ten-bit sum has the sum as its signed value (`toInt_tenBitSum`), so its sign bit and its upper two bits tell on
which side of 0..255 it lies. -/
theorem decoderArithmeticNeverWraps : Obligations.DecoderArithmeticNeverWraps := by
  refine ⟨fun prev x => ?_, by decide, by decide, by decide⟩
  obtain ⟨hlo, hhi⟩ := decodeSum_range prev x
  have hsum := toInt_tenBitSum prev x
  refine ⟨hlo, hhi, hsum, ?_, ?_, nextDec_toNat prev x⟩
  · rw [← hsum, ← BitVec.msb_eq_toInt]
    rfl
  · rw [upperBits_eq_one_iff (by omega), hsum]

end Sys2Proof.Machine
end

