-- ==== Sys2Proof/Proofs/DecoderStream.lean ====
section
/-! A whole channel stream through the decoder: the recurrence of `dec` and `bad` and DEC.STREAM on the machine (R93), the round trip
from the samples (R97, R98) and from the deltas (R99). On a conformant stream no sum is saturated, so each sample differs from the one
before it by the delta carried (`rawDelta_nextDec`). -/

namespace Sys2Proof.Machine

/-! ### The recurrence (R93) -/

theorem decStream_zero (bs : List Byte) : (decStream bs)[0]? = bs[0]? := by cases bs <;> rfl

/-- Each position of `dec` follows from the byte and from the sample before it. -/
theorem decStream_step {bs : List Byte} {i : Nat} {x p : Byte} (hx : bs[i + 1]? = some x) (hp : (decStream bs)[i]? = some p) :
    (decStream bs)[i + 1]? = some (nextDec p x) := by
  cases bs with
  | nil => cases hx
  | cons y bs => exact decFrom_step y bs i x p hx hp

theorem badFrom_iff (prev : Byte) (bs : List Byte) :
    badFrom prev bs = true ↔ ∃ (i : Nat) (x p : Byte), bs[i]? = some x ∧ (prev :: decFrom prev bs)[i]? = some p ∧
      (decodeSum p x < 0 ∨ decodeSum p x > 255) := by
  induction bs generalizing prev with
  | nil => simp [badFrom]
  | cons y bs ih =>
    rw [badFrom, Bool.or_eq_true, sumOutOfRange_iff, ih]
    constructor
    · rintro (hbad | ⟨i, x, p, hx, hp, hbad⟩)
      · exact ⟨0, y, prev, rfl, rfl, hbad⟩
      · exact ⟨i + 1, x, p, hx, hp, hbad⟩
    · rintro ⟨i, x, p, hx, hp, hbad⟩
      cases i with
      | zero =>
        cases hx
        cases hp
        exact .inl hbad
      | succ i => exact .inr ⟨i, x, p, hx, hp, hbad⟩

/-- A stream is bad if some position's sum is (R93). -/
theorem badStream_iff (bs : List Byte) :
    badStream bs = true ↔ ∃ (i : Nat) (x p : Byte), bs[i + 1]? = some x ∧ (decStream bs)[i]? = some p ∧
      (decodeSum p x < 0 ∨ decodeSum p x > 255) := by
  cases bs with
  | nil => simp [badStream]
  | cons y bs => exact badFrom_iff y bs

/-! ### Conformant streams -/

theorem badFrom_cons_eq_false {prev x : Byte} {bs : List Byte} (h : badFrom prev (x :: bs) = false) :
    (0 ≤ decodeSum prev x ∧ decodeSum prev x ≤ 255) ∧ badFrom (nextDec prev x) bs = false := by
  rwa [badFrom, Bool.or_eq_false_iff, sumOutOfRange_eq_false_iff] at h

/-- Every sum of a conformant stream is a byte. -/
theorem decodeSum_mem_of_good {bs : List Byte} (hgood : badStream bs = false) {i : Nat} {x p : Byte}
    (hx : bs[i + 1]? = some x) (hp : (decStream bs)[i]? = some p) : 0 ≤ decodeSum p x ∧ decodeSum p x ≤ 255 := by
  by_contra hrange
  have hbad : badStream bs = true := (badStream_iff bs).mpr ⟨i, x, p, hx, hp, by omega⟩
  rw [hgood] at hbad
  cases hbad

/-- A sum that is not saturated moves the sample by the delta carried. -/
theorem rawDelta_nextDec {prev x : Byte} (hlo : 0 ≤ decodeSum prev x) (hhi : decodeSum prev x ≤ 255) :
    rawDelta prev (nextDec prev x) = s8 x := by
  have hsample : unsigned (nextDec prev x) = unsigned prev + s8 x := nextDec_toNat_of_mem hlo hhi
  rw [rawDelta, hsample]
  omega

/-- The samples of a conformant stream are the partial sums of its deltas. -/
theorem decFrom_partialSum {prev : Byte} {bs : List Byte} (hgood : badFrom prev bs = false) {i : Nat} {x : Byte}
    (hx : (prev :: decFrom prev bs)[i]? = some x) : unsigned x = unsigned prev + ((bs.take i).map s8).sum := by
  induction bs generalizing prev i with
  | nil =>
    cases i with
    | zero =>
      cases hx
      exact (Int.add_zero _).symm
    | succ i => cases hx
  | cons y bs ih =>
    cases i with
    | zero =>
      cases hx
      exact (Int.add_zero _).symm
    | succ i =>
      obtain ⟨⟨hlo, hhi⟩, hrest⟩ := badFrom_cons_eq_false hgood
      have hsample : unsigned (nextDec prev y) = unsigned prev + s8 y := nextDec_toNat_of_mem hlo hhi
      rw [ih hrest hx, hsample, List.take_succ_cons, List.map_cons, List.sum_cons, Int.add_assoc]

theorem decStream_partialSum {bs : List Byte} (hgood : badStream bs = false) {i : Nat} {x : Byte}
    (hx : (decStream bs)[i]? = some x) :
    (x.toNat : Int) = (bs.head?.getD 0).toNat + (((bs.drop 1).take i).map s8).sum := by
  cases bs with
  | nil => cases hx
  | cons y bs => exact decFrom_partialSum hgood hx

/-! ### DEC.STREAM on the decoder (R93) -/

theorem runBeats_decStream_data (bs : List Byte) (b : Block) :
    (runBeats (streamOps .decoder bs) b).map OutBeat.data = decStream bs := by
  cases bs with
  | nil => rfl
  | cons x bs =>
    obtain ⟨hdata, -⟩ := runDecoder bs (Block.startStream x b) rfl
    exact congrArg (x :: ·) hdata

/-- DEC.STREAM takes `INVALID_DATA` if some sum is bad, and no other fault. -/
theorem runBlock_decStream_fault (bs : List Byte) (b : Block) :
    (runBlock (streamOps .decoder bs) b).fault = if badStream bs then setFault .invalidData b.fault else b.fault := by
  cases bs with
  | nil => rfl
  | cons x bs =>
    obtain ⟨-, -, -, hfault⟩ := runDecoder bs (Block.startStream x b) rfl
    exact hfault

/-- The beats of DEC.STREAM are flagged from the first bad sum on, if the decoder was not faulted before. -/
theorem runBeats_decStream_err {bs : List Byte} {b : Block} {k : Nat} {x : OutBeat}
    (hx : (runBeats (streamOps .decoder bs) b)[k]? = some x) :
    x.err = (errOf b.fault || badStream (bs.take (k + 1))) := by
  cases bs with
  | nil => cases hx
  | cons y bs =>
    cases k with
    | zero =>
      cases hx
      exact (Bool.or_false _).symm
    | succ k => exact runDecoder_err bs (Block.startStream y b) rfl k x hx

/-- Settles O18: DEC.STREAM is a run of the decoder's operations, whose data, `fault` and flags are those of `dec` and `bad`; the
recurrence is `decStream_step`. -/
theorem decoderStreamEmitsReconstruction : Obligations.DecoderStreamEmitsReconstruction := by
  intro bs m hne
  have hexec := execAll_samePort (streamOps_port .decoder bs) m
  refine ⟨⟨_, runBeats (streamOps .decoder bs) m.dec, hexec, runBlock_beats _ _, runBeats_decStream_data bs m.dec, ?_,
      fun hfault => ?_⟩, decStream_zero bs, fun i x p hx hp => ⟨nextDec p x, decStream_step hx hp, nextDec_toNat p x⟩,
    badStream_iff bs, fun hgood i x => decStream_partialSum hgood⟩
  · rw [runBeats_first, streamOps_isFirst .decoder hne]
  · have hend : (runBlock (streamOps .decoder bs) m.dec).fault = if badStream bs then setFault .invalidData 0 else 0 :=
      hfault ▸ runBlock_decStream_fault bs m.dec
    refine ⟨?_, ?_, fun k x hx => ?_⟩
    · refine (congrArg (BitVec.getLsbD · 1) hend).trans ?_
      cases badStream bs <;> rfl
    · refine (congrArg (BitVec.getLsbD · 0) hend).trans ?_
      cases badStream bs <;> rfl
    · rw [runBeats_decStream_err hx, hfault]
      rfl

/-! ### The round trip from the samples (R97, R98) -/

/-- Settles O19: the decoder follows the encoder's predictor, and no sum is bad. -/
theorem roundTripGivesTheReconstructedStream : Obligations.RoundTripGivesTheReconstructedStream :=
  ⟨fun s _ => ⟨decStream_encStream s, badStream_encStream s⟩, by decide⟩

theorem decStream_encStream_of_smooth {s : List Byte} (h : smooth s = true) : decStream (encStream s) = s :=
  (decStream_encStream s).trans (recStream_of_smooth h)

/-- Settles O20: a stream of small differences is smooth, so the reconstructed stream is the stream itself. -/
theorem roundTripIsExactForSmallDifferences : Obligations.RoundTripIsExactForSmallDifferences :=
  ⟨fun _ _ hsmall => decStream_encStream_of_smooth (smooth_of_smallDifferences hsmall), rfl, rfl,
    fun s => (decStream_zero (encStream s)).trans (encStream_zero s)⟩

/-! ### The round trip from the deltas (R99) -/

/-- After a conformant sum, re-encoding emits the byte that was decoded and follows the decoder's predictor. -/
theorem reencode_nextDec {prev x : Byte} (hlo : 0 ≤ decodeSum prev x) (hhi : decodeSum prev x ≤ 255) :
    tc8 (clampDelta (rawDelta prev (nextDec prev x))) = x ∧ nextRec prev (nextDec prev x) = nextDec prev x := by
  obtain ⟨hslo, hshi⟩ := s8_range x
  have hdelta := rawDelta_nextDec hlo hhi
  constructor
  · have hclamp : clampDelta (s8 x) = s8 x := clamp_of_mem hslo hshi
    rw [hdelta, hclamp, tc8_s8]
  · exact nextRec_of_mem (by omega) (by omega)

theorem encFrom_decFrom {prev : Byte} {bs : List Byte} (hgood : badFrom prev bs = false) :
    encFrom prev (decFrom prev bs) = bs := by
  induction bs generalizing prev with
  | nil => rfl
  | cons x bs ih =>
    obtain ⟨⟨hlo, hhi⟩, hrest⟩ := badFrom_cons_eq_false hgood
    obtain ⟨hbyte, hprev⟩ := reencode_nextDec hlo hhi
    rw [decFrom, encFrom, hbyte, hprev, ih hrest]

theorem smoothFrom_decFrom {prev : Byte} {bs : List Byte} (hgood : badFrom prev bs = false) :
    smoothFrom prev (decFrom prev bs) = true := by
  induction bs generalizing prev with
  | nil => rfl
  | cons x bs ih =>
    obtain ⟨⟨hlo, hhi⟩, hrest⟩ := badFrom_cons_eq_false hgood
    rw [decFrom, smoothFrom, rawDelta_nextDec hlo hhi, ih hrest, Bool.and_true]
    exact decide_eq_true (s8_range x)

theorem encStream_decStream {bs : List Byte} (hgood : badStream bs = false) : encStream (decStream bs) = bs := by
  cases bs with
  | nil => rfl
  | cons x bs => exact congrArg (x :: ·) (encFrom_decFrom hgood)

theorem smooth_decStream {bs : List Byte} (hgood : badStream bs = false) : smooth (decStream bs) = true := by
  cases bs with
  | nil => rfl
  | cons x bs => exact smoothFrom_decFrom hgood

/-- Settles O21: `encStream_decStream` one way round and `decStream_encStream_of_smooth` the other. -/
theorem reencodingAConformantStreamIsIdentity : Obligations.ReencodingAConformantStreamIsIdentity := by
  refine ⟨fun bs _ hgood => ⟨encStream_decStream hgood, smooth_decStream hgood, fun i d x y hd hx hy => ?_⟩,
    fun s _ hsmooth => ⟨badStream_encStream s, decStream_encStream_of_smooth hsmooth⟩⟩
  obtain ⟨hlo, hhi⟩ := decodeSum_mem_of_good hgood hd hx
  obtain rfl : nextDec x d = y := Option.some.inj ((decStream_step hd hx).symm.trans hy)
  exact rawDelta_nextDec hlo hhi

end Sys2Proof.Machine
end

