-- ==== Sys2Proof/Proofs/HostCalls.lean ====
section
/-! The calls of the host's software that drive no block (R112, R113, R117, R119): an equation per outcome, and an inversion that
says once what a call that answers has done. A call that fails answers `reply (.failed k) s` and nothing else (R122). -/

namespace Sys2Proof.Machine

/-! ### `push` (R112) -/

theorem hostPush_closed {e : HostEncoder} {s : State} (he : s.host.encoder = some e) (hlife : e.life ≠ .opened)
    (frame : Option Frame) : hostPush frame s = .next (reply (.failed .streamClosed) s) := by
  simp [hostPush, he, hlife, fail]

theorem hostPush_invalid {e : HostEncoder} {f : Frame} {s : State} (he : s.host.encoder = some e)
    (hlife : e.life = .opened) (hf : f.channels.length ≠ e.channelCount.toNat ∨ f.sampleCount = 0) :
    hostPush (some f) s = .next (reply (.failed .invalidArgument) s) := by
  simp [hostPush, he, hlife, hf, fail]

theorem Frame.wf_iff {n : BitVec 16} {f : Frame} :
    f.wf n = true ↔ 0 < f.sampleCount ∧ f.channels.length = n.toNat ∧ f.equalLengths = true := by
  simp [Frame.wf, and_assoc]

theorem hostPush_accepted {e : HostEncoder} {f : Frame} {s : State} (he : s.host.encoder = some e)
    (hlife : e.life = .opened) (hf : f.wf e.channelCount = true) :
    hostPush (some f) s = .next (reply .ok (s.setEncoder (e.append f))) := by
  obtain ⟨hcount, hn, heq⟩ := Frame.wf_iff.mp hf
  simp [hostPush, he, hlife, hn, heq, hcount.ne']

/-- Inversion of `push`. -/
theorem hostPush_next {frame : Option Frame} {s t : State} (h : hostPush frame s = .next t) :
    (∃ k, t = reply (.failed k) s) ∨
      ∃ e f, s.host.encoder = some e ∧ e.life = .opened ∧ f.wf e.channelCount = true ∧
        t = reply .ok (s.setEncoder (e.append f)) := by
  unfold hostPush at h
  split at h
  · cases h
  · next e he =>
    split at h
    · exact .inl ⟨_, fail_next h⟩
    · next hlife =>
      split at h
      · cases h
      · next f =>
        split at h
        · exact .inl ⟨_, fail_next h⟩
        · next hbad =>
          obtain ⟨hn, hcount⟩ := not_or.mp hbad
          split at h
          · next heq =>
            cases h
            exact .inr ⟨e, f, he, not_not.mp hlife,
              Frame.wf_iff.mpr ⟨Nat.pos_of_ne_zero hcount, not_not.mp hn, heq⟩, rfl⟩
          · cases h

/-- Queue `c` gets channel array `c` of the frame. -/
theorem append_queues_getElem? {e : HostEncoder} {f : Frame} {c : Nat} {q : List (List Byte)} {a : List Byte}
    (hq : e.queues[c]? = some q) (ha : f.channels[c]? = some a) : (e.append f).queues[c]? = some (q ++ [a]) := by
  simp [HostEncoder.append, List.getElem?_zipWith, hq, ha]

theorem append_queues_length {e : HostEncoder} {f : Frame} (h : f.channels.length = e.queues.length) :
    (e.append f).queues.length = e.queues.length := by
  simp [HostEncoder.append, h]

/-- Settles O46: the two failures, and the frame appended queue by queue. -/
theorem pushAppendsOrFails : Obligations.PushAppendsOrFails := by
  intro s e f he
  refine ⟨hostPush_closed he, hostPush_invalid he, fun hlife hf hqueues => ?_⟩
  obtain ⟨-, hn, -⟩ := Frame.wf_iff.mp hf
  exact ⟨e.append f, hostPush_accepted he hlife hf, hlife, rfl, rfl, rfl, append_queues_length (hn.trans hqueues.symm),
    fun _ _ _ => append_queues_getElem?⟩

/-! ### `finish` (R113) -/

theorem hostFinish_opened {e : HostEncoder} {s : State} (he : s.host.encoder = some e) (hlife : e.life = .opened) :
    hostFinish s = .next (reply .ok (s.setEncoder { e with life := .finalized })) := by
  simp [hostFinish, he, hlife]

theorem hostFinish_closed {e : HostEncoder} {s : State} (he : s.host.encoder = some e) (hlife : e.life ≠ .opened) :
    hostFinish s = .next (reply (.failed .streamClosed) s) := by
  simp [hostFinish, he, hlife, fail]

/-- Inversion of `finish`. -/
theorem hostFinish_next {s t : State} (h : hostFinish s = .next t) :
    (∃ k, t = reply (.failed k) s) ∨
      ∃ e, s.host.encoder = some e ∧ e.life = .opened ∧
        t = reply .ok (s.setEncoder { e with life := .finalized }) := by
  cases he : s.host.encoder with
  | none => simp [hostFinish, he] at h
  | some e =>
    by_cases hlife : e.life = .opened
    · rw [hostFinish_opened he hlife] at h
      exact .inr ⟨e, rfl, hlife, (Host.Outcome.next.inj h).symm⟩
    · rw [hostFinish_closed he hlife] at h
      exact .inl ⟨_, (Host.Outcome.next.inj h).symm⟩

/-- Settles O47. -/
theorem finishFinalizesOnce : Obligations.FinishFinalizesOnce :=
  fun _ _ he => ⟨hostFinish_opened he, hostFinish_closed he⟩

/-! ### The checks of `buildPacket` (R114) -/

theorem hostBuildPacket_consumed {e : HostEncoder} {s : State} (he : s.host.encoder = some e)
    (hlife : e.life = .consumed) : hostBuildPacket s = .next (reply (.failed .alreadyProduced) s) := by
  simp [hostBuildPacket, he, hlife, fail]

theorem hostBuildPacket_empty {e : HostEncoder} {s : State} (he : s.host.encoder = some e)
    (hlife : e.life ≠ .consumed) (ht : e.totalSamples = 0) :
    hostBuildPacket s = .next (reply (.failed .invalidArgument) s) := by
  simp [hostBuildPacket, he, hlife, ht, fail]

theorem hostBuildPacket_opened {e : HostEncoder} {s : State} (he : s.host.encoder = some e) (hlife : e.life = .opened)
    (ht : e.totalSamples ≠ 0) : hostBuildPacket s = .next (reply (.failed .invalidState) s) := by
  simp [hostBuildPacket, he, hlife, ht, fail]

/-- All three checks passed. -/
theorem hostBuildPacket_finalized {e : HostEncoder} {s : State} (he : s.host.encoder = some e)
    (hlife : e.life = .finalized) (ht : 0 < e.totalSamples) : hostBuildPacket s = producePacket e s := by
  simp [hostBuildPacket, he, hlife, ht.ne']

/-- Inversion of `buildPacket`: a check failed, or the packet was to be produced. -/
theorem hostBuildPacket_next {s t : State} (h : hostBuildPacket s = .next t) :
    (∃ k, t = reply (.failed k) s) ∨ ∃ e, s.host.encoder = some e ∧ producePacket e s = .next t := by
  unfold hostBuildPacket at h
  split at h
  · cases h
  · next e he =>
    split at h
    · exact .inl ⟨_, fail_next h⟩
    · split at h
      · exact .inl ⟨_, fail_next h⟩
      · split at h
        · exact .inl ⟨_, fail_next h⟩
        · exact .inr ⟨e, he, h⟩

/-- Settles O48. -/
theorem buildPacketChecksInOrder : Obligations.BuildPacketChecksInOrder :=
  fun _ _ he => ⟨hostBuildPacket_consumed he, hostBuildPacket_empty he, hostBuildPacket_opened he⟩

/-! ### `write` (R117) -/

theorem hostWrite_opened {e : HostEncoder} {s : State} (he : s.host.encoder = some e) (hlife : e.life = .opened) :
    hostWrite s = .next (reply (.failed .invalidState) s) := by
  simp [hostWrite, hasFinalized, he, hlife, fail]

theorem hostWrite_packet {e : HostEncoder} {image : Memory} {s : State} (he : s.host.encoder = some e)
    (hlife : e.life ≠ .opened) (hp : s.host.packet = some image) :
    hostWrite s = .next (reply .ok { s with host := { s.host with file := image } }) := by
  simp [hostWrite, hasFinalized, he, hlife, hp]

/-- Inversion of `write`. -/
theorem hostWrite_next {s t : State} (h : hostWrite s = .next t) :
    (∃ k, t = reply (.failed k) s) ∨
      ∃ image, s.host.packet = some image ∧ t = reply .ok { s with host := { s.host with file := image } } := by
  unfold hostWrite at h
  split at h
  · split at h
    · cases h
    · next image hp =>
      cases h
      exact .inr ⟨image, hp, rfl⟩
  · exact .inl ⟨_, fail_next h⟩

/-- Settles O51. -/
theorem writeForwardsThePacketVerbatim : Obligations.WriteForwardsThePacketVerbatim :=
  fun _ _ he => ⟨hostWrite_opened he, fun _ hlife hp => ⟨_, hostWrite_packet he hlife hp, rfl, rfl, hp, rfl, rfl⟩⟩

/-! ### `read` (R119) -/

theorem hostRead_none {s : State} (h : readFile s.host.file = none) :
    hostRead s = .next (reply (.failed .invalidData) s) := by
  simp [hostRead, h, fail]

theorem hostRead_some {q : Parsed} {s : State} (h : readFile s.host.file = some q) :
    hostRead s = .next (reply (.header q) { s with host := { s.host with parsed := some q } }) := by
  simp [hostRead, h]

/-- Inversion of `read`. -/
theorem hostRead_next {s t : State} (h : hostRead s = .next t) :
    (∃ k, t = reply (.failed k) s) ∨
      ∃ q, readFile s.host.file = some q ∧
        t = reply (.header q) { s with host := { s.host with parsed := some q } } := by
  cases hq : readFile s.host.file with
  | none =>
    rw [hostRead_none hq] at h
    exact .inl ⟨_, (Host.Outcome.next.inj h).symm⟩
  | some q =>
    rw [hostRead_some hq] at h
    exact .inr ⟨q, rfl, (Host.Outcome.next.inj h).symm⟩

/-! ### Failures (R122) -/

theorem getLast?_reply (r : Reply) (s : State) : (reply r s).host.replies.getLast? = some r := by simp

/-- A call whose answer is a success has not failed. -/
theorem eq_failed_of_getLast? {s t : State} {k : ErrKind} (hlast : t.host.replies.getLast? = some (.failed k))
    (h : (∃ k', t = reply (.failed k') s) ∨ ∃ r u, (∀ k', r ≠ .failed k') ∧ t = reply r u) : t = reply (.failed k) s := by
  rcases h with ⟨k', rfl⟩ | ⟨r, u, hr, rfl⟩ <;> rw [getLast?_reply, Option.some_inj] at hlast
  · rw [hlast]
  · exact absurd hlast (hr k)

/-- Settles O57: by the inversion of each call, it answered a failure and did nothing else, or it answered a success. -/
theorem failingCallsChangeNothing : Obligations.FailingCallsChangeNothing := by
  intro c s t k hc h hlast
  refine eq_failed_of_getLast? hlast ?_
  rcases hc with ⟨frame, rfl⟩ | rfl | rfl | rfl
  · exact (hostPush_next h).imp_right fun ⟨e, f, _, _, _, ht⟩ => ⟨.ok, _, by simp, ht⟩
  · exact (hostFinish_next h).imp_right fun ⟨e, _, _, ht⟩ => ⟨.ok, _, by simp, ht⟩
  · exact (hostWrite_next h).imp_right fun ⟨image, _, ht⟩ => ⟨.ok, _, by simp, ht⟩
  · exact (hostRead_next h).imp_right fun ⟨q, _, ht⟩ => ⟨.header q, _, by simp, ht⟩

end Sys2Proof.Machine
end

