-- ==== Sys2Proof/Proofs/ContainerHeader.lean ====
section
/-! The reader as a function of the file's bytes (R119): what it admits (`HeaderOk`, `PacketOk`), and what it then hands on
(`headerOf`, `parsedOf`). A written header is admitted and gives back its fields (R125). -/

namespace Sys2Proof.Machine

/-! ### A memory and its bytes -/

@[simp] theorem Memory.bytes_length (m : Memory) : m.bytes.length = m.len := readCells_length _ _ _

theorem Memory.bytes_getElem? (m : Memory) (a : Nat) : m.bytes[a]? = m.read a := by
  rcases Nat.lt_or_ge a m.len with hin | hpast
  · rw [Memory.read_of_lt hin, Memory.bytes, readCells_getElem? _ _ _ _ hin, Nat.zero_add]
  · rw [Memory.read_of_len_le hpast, List.getElem?_eq_none (by simpa using hpast)]

/-- Bytes are told by the reads. -/
theorem Memory.bytes_eq {m : Memory} {bs : List Byte} (h : ∀ a, m.read a = bs[a]?) : m.bytes = bs :=
  List.ext_getElem? fun a => (m.bytes_getElem? a).trans (h a)

/-- The bytes `off`, `off + 1`, … of a file, as far as `n` bytes. -/
def field (bs : List Byte) (off n : Nat) : List Byte := (bs.drop off).take n

theorem readCells_eq_field {cells : List Host.Cell} {len off n : Nat} (h : off + n ≤ len) :
    readCells cells off n = field (readCells cells 0 len) off n := by
  refine List.ext_getElem? fun k => ?_
  rw [field, List.getElem?_take, List.getElem?_drop]
  split
  · next hk => rw [readCells_getElem? _ _ _ _ hk, readCells_getElem? _ _ _ _ (by omega), Nat.zero_add]
  · next hk => exact List.getElem?_eq_none (by rw [readCells_length]; omega)

/-- A slice is the field of the file's bytes, where the file has all of it. -/
theorem Memory.slice_of_le {m : Memory} {off n : Nat} (h : off + n ≤ m.len) : m.slice off n = some (field m.bytes off n) := by
  rw [Memory.slice, if_pos h, readCells_eq_field h]
  rfl

theorem Memory.slice_of_lt {m : Memory} {off n : Nat} (h : m.len < off + n) : m.slice off n = none :=
  if_neg (Nat.not_le.mpr h)

/-! ### The fields of a header (R33, R34) -/

theorem leValue_field_lt (bs : List Byte) (off n : Nat) : leValue (field bs off n) < 256 ^ n :=
  (leValue_lt _).trans_le (Nat.pow_le_pow_right (by decide) (List.length_take_le _ _))

theorem leValue_field_zero (bs : List Byte) (off : Nat) : leValue (field bs off 0) = 0 := by rw [field, List.take_zero, leValue]

/-- The number at an offset, its first byte the least significant; past the end of the list a byte counts as 0. -/
theorem leValue_field_succ (bs : List Byte) (off n : Nat) :
    leValue (field bs off (n + 1)) = (bs.getD off 0).toNat + 256 * leValue (field bs (off + 1) n) := by
  rcases Nat.lt_or_ge off bs.length with hin | hpast
  · rw [field, List.drop_eq_getElem_cons hin, List.take_succ_cons, leValue, List.getD_eq_getElem _ _ hin, field]
  · rw [List.getD_eq_default _ _ hpast, field, List.drop_eq_nil_of_le hpast, field, List.drop_eq_nil_of_le (by omega)]
    simp [leValue]

theorem leValue_field_two (bs : List Byte) (off : Nat) :
    leValue (field bs off 2) = (bs.getD off 0).toNat + 256 * (bs.getD (off + 1) 0).toNat := by
  simp only [leValue_field_succ, leValue_field_zero]
  omega

theorem leValue_field_four (bs : List Byte) (off : Nat) :
    leValue (field bs off 4) = (bs.getD off 0).toNat + 256 * (bs.getD (off + 1) 0).toNat +
      65536 * (bs.getD (off + 2) 0).toNat + 16777216 * (bs.getD (off + 3) 0).toNat := by
  simp only [leValue_field_succ, leValue_field_zero, Nat.add_assoc, Nat.reduceAdd]
  omega

/-- The three fields at their offsets in a file's bytes. -/
def headerOf (bs : List Byte) : Header :=
  { sampleRate := BitVec.ofNat 32 (leValue (field bs 4 4)), channelCount := BitVec.ofNat 16 (leValue (field bs 8 2)),
    totalSamples := BitVec.ofNat 32 (leValue (field bs 10 4)) }

theorem headerOf_sampleRate (bs : List Byte) : (headerOf bs).sampleRate.toNat = leValue (field bs 4 4) :=
  Nat.mod_eq_of_lt (leValue_field_lt bs 4 4)

theorem headerOf_channelCount (bs : List Byte) : (headerOf bs).channelCount.toNat = leValue (field bs 8 2) :=
  Nat.mod_eq_of_lt (leValue_field_lt bs 8 2)

theorem headerOf_totalSamples (bs : List Byte) : (headerOf bs).totalSamples.toNat = leValue (field bs 10 4) :=
  Nat.mod_eq_of_lt (leValue_field_lt bs 10 4)

/-- A number of a field's width is read back from it. -/
theorem ofNat_leValue_leBytes {w k : Nat} (x : BitVec w) (h : 2 ^ w = 256 ^ k) :
    BitVec.ofNat w (leValue (leBytes k x.toNat)) = x := by
  rw [leValue_leBytes k _ (h ▸ x.isLt), BitVec.ofNat_toNat, BitVec.setWidth_eq]

/-- R125: the fields written are the fields read, whatever bytes follow. -/
theorem headerOf_writeHeader (h : Header) (rest : List Byte) : headerOf (writeHeader h ++ rest) = h := by
  have hrate : field (writeHeader h ++ rest) 4 4 = leBytes 4 h.sampleRate.toNat := rfl
  have hchannels : field (writeHeader h ++ rest) 8 2 = leBytes 2 h.channelCount.toNat := rfl
  have htotal : field (writeHeader h ++ rest) 10 4 = leBytes 4 h.totalSamples.toNat := rfl
  rw [headerOf, hrate, hchannels, htotal, ofNat_leValue_leBytes _ rfl, ofNat_leValue_leBytes _ rfl,
    ofNat_leValue_leBytes _ rfl]

/-! ### Parsing (R119) -/

/-- Checks (1) to (5) of R119. -/
structure HeaderOk (bs : List Byte) : Prop where
  length : 14 ≤ bs.length
  magic : bs.take 4 = magic
  channels : (headerOf bs).channelCount.toNat ≠ 0
  total : (headerOf bs).totalSamples.toNat ≠ 0

theorem parseHeader_of_lt {m : Memory} (h : m.len < 14) : parseHeader m = none := by
  rw [parseHeader, Memory.slice_of_lt (off := 10) (n := 4) h]
  cases m.slice 0 4 <;> cases m.slice 4 4 <;> cases m.slice 8 2 <;> rfl

/-- The checks as the parser makes them on a file that has a header's length. -/
theorem headerOk_iff {bs : List Byte} (h : 14 ≤ bs.length) :
    HeaderOk bs ↔ field bs 0 4 = magic ∧ leValue (field bs 8 2) ≠ 0 ∧ leValue (field bs 10 4) ≠ 0 := by
  rw [← headerOf_channelCount, ← headerOf_totalSamples]
  exact ⟨fun ⟨_, hmagic, hn, ht⟩ => ⟨hmagic, hn, ht⟩, fun ⟨hmagic, hn, ht⟩ => ⟨h, hmagic, hn, ht⟩⟩

/-- Header parsing: exactly the headers that pass the checks, each with its fields. -/
theorem parseHeader_eq_some_iff {m : Memory} {h : Header} :
    parseHeader m = some h ↔ HeaderOk m.bytes ∧ h = headerOf m.bytes := by
  rcases Nat.lt_or_ge m.len 14 with hshort | hlong
  · rw [parseHeader_of_lt hshort]
    refine ⟨fun h => (nomatch h), fun ⟨⟨hlength, _, _, _⟩, _⟩ => ?_⟩
    rw [Memory.bytes_length] at hlength
    omega
  · rw [headerOk_iff (m.bytes_length.symm ▸ hlong), parseHeader, Memory.slice_of_le (by omega),
      Memory.slice_of_le (by omega), Memory.slice_of_le (by omega), Memory.slice_of_le (by omega)]
    dsimp only
    split
    · next hmagic => simp [hmagic]
    · split
      · next hzero => simp [hzero]
      · split
        · next hzero => simp [hzero]
        · next hmagic hchannels htotal =>
          simp only [Option.some_inj, not_not.mp hmagic, ne_eq, hchannels, htotal, not_false_eq_true, true_and]
          exact eq_comm

theorem headerOk_writeHeader {h : Header} (rest : List Byte) (hn : h.channelCount ≠ 0) (ht : h.totalSamples ≠ 0) :
    HeaderOk (writeHeader h ++ rest) := by
  refine ⟨by simp, rfl, ?_, ?_⟩ <;> rw [headerOf_writeHeader]
  · exact BitVec.toNat_ne.mp hn
  · exact BitVec.toNat_ne.mp ht

/-- Settles O52: a written header passes the checks, and its fields are those written. -/
theorem headerRoundTrip : Obligations.HeaderRoundTrip := by
  intro h rest hn ht
  refine ⟨writeHeader_length h, parseHeader_eq_some_iff.mpr ?_⟩
  rw [Memory.ofBytes_bytes, headerOf_writeHeader]
  exact ⟨headerOk_writeHeader rest hn ht, rfl⟩

/-! ### The whole of `read` (R119, R126) -/

/-- What the reader hands on of a file's bytes: the fields, and the `N*T` bytes behind the header. -/
def parsedOf (bs : List Byte) : Parsed :=
  { header := headerOf bs
    payload := field bs 14 ((headerOf bs).channelCount.toNat * (headerOf bs).totalSamples.toNat) }

/-- All checks of R119: those of the header, and the size. -/
structure PacketOk (bs : List Byte) : Prop where
  header : HeaderOk bs
  size : 14 + (headerOf bs).channelCount.toNat * (headerOf bs).totalSamples.toNat ≤ bs.length

theorem readFile_eq_some_iff {m : Memory} {q : Parsed} : readFile m = some q ↔ PacketOk m.bytes ∧ q = parsedOf m.bytes := by
  cases hparse : parseHeader m with
  | none =>
    have hbad : ¬ HeaderOk m.bytes := fun hok => by
      rw [parseHeader_eq_some_iff.mpr ⟨hok, rfl⟩] at hparse
      cases hparse
    simp only [readFile, hparse]
    exact ⟨fun h => (nomatch h), fun ⟨⟨hok, _⟩, _⟩ => absurd hok hbad⟩
  | some h =>
    obtain ⟨hok, rfl⟩ := parseHeader_eq_some_iff.mp hparse
    simp only [readFile, hparse]
    rcases Nat.lt_or_ge m.len (14 + (headerOf m.bytes).channelCount.toNat * (headerOf m.bytes).totalSamples.toNat)
      with hshort | hlong
    · rw [Memory.slice_of_lt (off := Config.hdrBytes) hshort]
      refine ⟨fun h => (nomatch h), fun ⟨⟨_, hsize⟩, _⟩ => ?_⟩
      rw [Memory.bytes_length] at hsize
      omega
    · rw [Memory.slice_of_le (off := Config.hdrBytes) hlong]
      refine ⟨fun h => ⟨⟨hok, by simpa using hlong⟩, (Option.some.inj h).symm⟩, fun ⟨_, hq⟩ => ?_⟩
      rw [hq]
      rfl

theorem readFile_eq_none {m : Memory} (h : ¬ PacketOk m.bytes) : readFile m = none := by
  rw [Option.eq_none_iff_forall_ne_some]
  intro q hq
  exact h (readFile_eq_some_iff.mp hq).1

/-- What the reader hands on is what its checks admit. -/
theorem parsedOf_inv {bs : List Byte} (h : PacketOk bs) : (parsedOf bs).Inv := by
  obtain ⟨⟨-, -, hn, ht⟩, hsize⟩ := h
  refine ⟨BitVec.toNat_ne.mpr hn, BitVec.toNat_ne.mpr ht, ?_⟩
  simp only [parsedOf, field, List.length_take, List.length_drop]
  omega

/-- A written packet is read back: its header and its payload (R33, R118, R119). -/
theorem readFile_packet {m : Memory} {q : Parsed} (hq : q.Inv) (hm : m.bytes = writeHeader q.header ++ q.payload) :
    readFile m = some q := by
  obtain ⟨hn, ht, hsize⟩ := hq
  refine readFile_eq_some_iff.mpr ?_
  rw [hm]
  refine ⟨⟨headerOk_writeHeader _ hn ht, by rw [headerOf_writeHeader]; simp [hsize]⟩, ?_⟩
  rw [parsedOf, headerOf_writeHeader, field, ← hsize, List.drop_left' (writeHeader_length _), List.take_length]

/-- Settles O53: the conditions are `PacketOk` and its negation, and the fields are the numbers at their offsets. -/
theorem readerAcceptsExactlyWholePackets : Obligations.ReaderAcceptsExactlyWholePackets := by
  intro file s hfile at4 n
  have hbytes : s.host.file.bytes = file := by rw [hfile, Memory.ofBytes_bytes]
  have hrate : (headerOf file).sampleRate.toNat = at4 4 := by rw [headerOf_sampleRate, leValue_field_four]
  have hn : (headerOf file).channelCount.toNat = n := by rw [headerOf_channelCount, leValue_field_two]
  have ht : (headerOf file).totalSamples.toNat = at4 10 := by rw [headerOf_totalSamples, leValue_field_four]
  constructor
  · intro hbad
    refine hostRead_none (readFile_eq_none ?_)
    rw [hbytes]
    rintro ⟨⟨hlength, hmagic, hchannels, htotal⟩, hsize⟩
    rw [hn] at hchannels hsize
    rw [ht] at htotal hsize
    rcases hbad with h | h | h | h | h
    · omega
    · exact h hmagic
    · exact hchannels h
    · exact htotal h
    · omega
  · intro hlength hmagic hchannels htotal hsize
    rw [← hn, ← ht] at hsize
    have hok : PacketOk file := ⟨⟨hlength, hmagic, hn ▸ hchannels, ht ▸ htotal⟩, hsize⟩
    have hread : readFile s.host.file = some (parsedOf file) := by
      rw [readFile_eq_some_iff, hbytes]
      exact ⟨hok, rfl⟩
    refine ⟨_, parsedOf file, hostRead_some hread, rfl, rfl, rfl, rfl, hrate, hn, ht, ?_⟩
    rw [← hn, ← ht]
    rfl

end Sys2Proof.Machine
end

