-- ==== Sys2Proof/Proofs/HostProcedures.lean ====
section
/-! The two host procedures that drive a block (R118, R120, R129). Sending channels is one run of their operations on the block
(`transfer_packet`), to be discarded exactly if the block is faulted after it (`runFailed_sent`); `sentPacket` is the state then. -/

namespace Sys2Proof.Machine

/-! ### Sending channels through a block -/

/-- The operations of a packet's channels, one stream after the other (R44). -/
def packetOps (p : Port) (cs : List (List Byte)) : List Instr := cs.flatMap (streamOps p)

theorem packetOps_cons (p : Port) (c : List Byte) (cs : List (List Byte)) :
    packetOps p (c :: cs) = streamOps p c ++ packetOps p cs := List.flatMap_cons

/-- The state when the channels have gone through the block at a port and the sink has taken every beat. -/
def sentPacket (p : Port) (cs : List (List Byte)) (s : State) : State :=
  (s.setBlock p { runBlock (packetOps p cs) (s.block p) with outq := [] }).setTaken p
    (s.taken p ++ (s.block p).beats ++ runBeats (packetOps p cs) (s.block p))

@[simp] theorem sentPacket_host (p : Port) (cs : List (List Byte)) (s : State) : (sentPacket p cs s).host = s.host := by
  simp [sentPacket]

@[simp] theorem sentPacket_turns (p : Port) (cs : List (List Byte)) (s : State) : (sentPacket p cs s).turns = s.turns := by
  simp [sentPacket]

@[simp] theorem sentPacket_block_same (p : Port) (cs : List (List Byte)) (s : State) :
    (sentPacket p cs s).block p = { runBlock (packetOps p cs) (s.block p) with outq := [] } := by
  simp [sentPacket]

theorem sentPacket_block_other {p q : Port} (hq : q ≠ p) (cs : List (List Byte)) (s : State) :
    (sentPacket p cs s).block q = s.block q := by
  rw [sentPacket, State.setTaken_block, State.setBlock_block_other _ _ _ _ hq]

@[simp] theorem resetPort_host (p : Port) (s : State) : (s.resetPort p).host = s.host := State.setBlock_host _ _ _

/-- The transfer of a host procedure completes: what was pending is taken, and the channels' operations run. -/
theorem transfer_packet (p : Port) (cs : List (List Byte)) (s : State) :
    transfer p (packetWords cs) (s.drain p) = .next (sentPacket p cs s) := by
  rw [transfer_eq p _ _ (drain_outq p s), decode_packetWords]
  cases p <;> simp only [State.drain, State.setTaken_block, State.setBlock_block_same, runBlock_withOutq,
    runBeats_withOutq, State.setTaken_taken_same] <;> rfl

theorem newBeats_sent (p : Port) (cs : List (List Byte)) (s : State) :
    newBeats p (s.drain p) (sentPacket p cs s) = runBeats (packetOps p cs) (s.block p) := by
  simp [newBeats, sentPacket, State.drain]

/-- The run is not to be used exactly if the block is faulted after it: a flagged beat leaves it so. -/
theorem runFailed_sent (p : Port) (cs : List (List Byte)) (s : State) :
    runFailed p (runBeats (packetOps p cs) (s.block p)) (sentPacket p cs s) =
      errOf (runBlock (packetOps p cs) (s.block p)).fault := by
  rw [runFailed, sentPacket_block_same]
  cases hfault : errOf (runBlock (packetOps p cs) (s.block p)).fault with
  | true => exact Bool.or_true _
  | false => simpa using runBeats_err_of_unfaulted _ hfault

/-! ### What the channels of a packet do to a block -/

theorem runBeats_encStream_data (s : List Byte) (b : Block) :
    (runBeats (streamOps .encoder s) b).map OutBeat.data = encStream s := by
  cases s with
  | nil => rfl
  | cons x s =>
    obtain ⟨hdata, -⟩ := runEncoder s (Block.startStream x b) rfl
    exact congrArg (x :: ·) hdata

/-- What a block emits for each stream, whatever its state, it emits for the streams of a packet one after the other. -/
theorem runBeats_packet_data {p : Port} {f : List Byte → List Byte}
    (hf : ∀ s b, (runBeats (streamOps p s) b).map OutBeat.data = f s) (cs : List (List Byte)) (b : Block) :
    (runBeats (packetOps p cs) b).map OutBeat.data = (cs.map f).flatten := by
  induction cs generalizing b with
  | nil => rfl
  | cons c cs ih => rw [packetOps_cons, runBeats_append, List.map_append, hf, ih, List.map_cons, List.flatten_cons]

theorem runBlock_packet_encoder_fault (cs : List (List Byte)) (b : Block) :
    (runBlock (packetOps .encoder cs) b).fault = b.fault := by
  induction cs generalizing b with
  | nil => rfl
  | cons c cs ih => rw [packetOps_cons, runBlock_append, ih, runBlock_encStream_fault]

/-- The decoder is faulted after a packet if it was before, or if some channel is bad (R93). -/
theorem runBlock_packet_decoder_err (cs : List (List Byte)) (b : Block) :
    errOf (runBlock (packetOps .decoder cs) b).fault = (errOf b.fault || cs.any badStream) := by
  induction cs generalizing b with
  | nil => exact (Bool.or_false _).symm
  | cons c cs ih =>
    rw [packetOps_cons, runBlock_append, ih, runBlock_decStream_fault, List.any_cons, ← Bool.or_assoc]
    cases badStream c <;> simp

/-! ### `buildPacket` (R118) -/

/-- The encoded channels, laid end to end. -/
def HostEncoder.payload (e : HostEncoder) : List Byte := (e.streams.map encStream).flatten

/-- Everything `producePacket` does: on an unfaulted encoder the image of the encoded channels is delivered; on a faulted one every
beat is discarded. -/
theorem producePacket_eq (e : HostEncoder) (s : State) :
    producePacket e s =
      if s.enc.fault = 0 then
        (packetImage e.totalSamples e.header e.payload).elim
          (.fault (.offsetOutsideFile (packetSize e.channelCount.toNat e.totalSamples)))
          (fun image => .next (deliverPacket e image (sentPacket .encoder e.streams s)))
      else .next (reply (.failed .invalidData) ((sentPacket .encoder e.streams s).resetPort .encoder)) := by
  have hdata : (runBeats (packetOps .encoder e.streams) (s.block .encoder)).map OutBeat.data = e.payload :=
    runBeats_packet_data runBeats_encStream_data _ _
  have herr : errOf (runBlock (packetOps .encoder e.streams) (s.block .encoder)).fault = errOf s.enc.fault :=
    congrArg errOf (runBlock_packet_encoder_fault _ _)
  simp only [producePacket, transfer_packet, andThen, newBeats_sent, runFailed_sent, hdata, herr]
  by_cases hfault : s.enc.fault = 0
  · rw [if_pos hfault, errOf_eq_false.mpr hfault]
    cases packetImage e.totalSamples e.header e.payload <;> rfl
  · rw [if_neg hfault, errOf_eq_true.mpr hfault]
    rfl

/-- Inversion of `producePacket`. -/
theorem producePacket_next {e : HostEncoder} {s t : State} (h : producePacket e s = .next t) :
    t = reply (.failed .invalidData) ((sentPacket .encoder e.streams s).resetPort .encoder) ∨
      ∃ image, packetImage e.totalSamples e.header e.payload = some image ∧
        t = deliverPacket e image (sentPacket .encoder e.streams s) := by
  rw [producePacket_eq] at h
  split at h
  · cases himage : packetImage e.totalSamples e.header e.payload with
    | none => rw [himage] at h; cases h
    | some image =>
      rw [himage] at h
      exact .inr ⟨image, rfl, (Host.Outcome.next.inj h).symm⟩
  · exact .inl (Host.Outcome.next.inj h).symm

/-- Until its queue is released, an Encoder's channels are `N` streams of `T` samples (R111, R112). -/
theorem HostEncoder.Inv.streams {e : HostEncoder} (h : e.Inv) (hlife : e.life = .finalized) :
    e.streams.length = e.channelCount.toNat ∧ ∀ c ∈ e.streams, c.length = e.totalSamples := by
  obtain ⟨-, hqueues, hfilled⟩ := h
  exact ⟨(List.length_map _).trans hqueues, List.forall_mem_map.mpr (hfilled (by rw [hlife]; decide))⟩

/-- The encoded channels have the same number and lengths (R73). -/
theorem HostEncoder.Inv.encoded {e : HostEncoder} (h : e.Inv) (hlife : e.life = .finalized) :
    (e.streams.map encStream).length = e.channelCount.toNat ∧ ∀ c ∈ e.streams.map encStream, c.length = e.totalSamples := by
  obtain ⟨hn, ht⟩ := h.streams hlife
  exact ⟨(List.length_map _).trans hn, List.forall_mem_map.mpr fun c hc => (encStream_length c).trans (ht c hc)⟩

theorem HostEncoder.Inv.payload_length {e : HostEncoder} (h : e.Inv) (hlife : e.life = .finalized) :
    e.payload.length = e.channelCount.toNat * e.totalSamples := by
  obtain ⟨hn, ht⟩ := h.encoded hlife
  rw [HostEncoder.payload, flatten_length_of_forall ht, hn]

/-- Everything a successful `buildPacket` does. -/
theorem hostBuildPacket_done {e : HostEncoder} {s : State} (he : s.host.encoder = some e) (hinv : e.Inv)
    (hlife : e.life = .finalized) (ht : 0 < e.totalSamples) (hfault : s.enc.fault = 0) :
    ∃ image : Memory, hostBuildPacket s = .next (deliverPacket e image (sentPacket .encoder e.streams s)) ∧
      image.wf = true ∧ image.len = 14 + e.channelCount.toNat * e.totalSamples ∧
      image.bytes = writeHeader e.header ++ e.payload := by
  obtain ⟨image, himage, hwf, hlen, hread⟩ := packetImage_spec (h := e.header) (hinv.payload_length hlife)
  refine ⟨image, ?_, hwf, hlen, Memory.bytes_eq hread⟩
  rw [hostBuildPacket_finalized he hlife ht, producePacket_eq, if_pos hfault, himage]
  rfl

theorem totalField_toNat {t : Nat} (h : t < 2 ^ 32) : (totalField t).toNat = t := by
  rw [totalField, Config.totalLimit, if_pos h, BitVec.toNat_ofNat, Nat.mod_eq_of_lt h]

/-- Settles O49: the packet's bytes are those of `hostBuildPacket_done`, and the block's are `sentPacket`'s. -/
theorem buildPacketProducesTheImage : Obligations.BuildPacketProducesTheImage := by
  intro s e he hinv hlife ht hfault
  obtain ⟨image, hcall, hwf, hlen, hbytes⟩ := hostBuildPacket_done he hinv hlife ht hfault
  have hend : (sentPacket .encoder e.streams s).enc = { runBlock (packetOps .encoder e.streams) s.enc with outq := [] } :=
    sentPacket_block_same .encoder e.streams s
  refine ⟨_, image, _, totalField e.totalSamples, hcall, ?_, rfl, rfl, rfl, fun q hq => List.eq_of_mem_replicate hq, hwf,
    hlen, totalField_toNat, ?_, ?_, congrArg Block.outq hend, sentPacket_block_other (q := .decoder) (by decide) _ _⟩
  · simp [deliverPacket]
  · rw [hbytes, List.flatMap_def]
    rfl
  · exact (congrArg Block.fault hend).trans ((runBlock_packet_encoder_fault _ _).trans hfault)

/-- Settles O50: the transfer leaves the encoder faulted, so nothing of it is used. -/
theorem faultedEncoderProducesNoPacket : Obligations.FaultedEncoderProducesNoPacket := by
  intro s e he hlife ht hfault
  refine ⟨_, (hostBuildPacket_finalized he hlife ht).trans ((producePacket_eq e s).trans (if_neg hfault)), ?_, rfl, rfl, rfl,
    sentPacket_block_other (q := .decoder) (by decide) _ _⟩
  simp [reply]

/-! ### `decode` (R120) -/

theorem splitChannels_flatten {t : Nat} {channels : List (List Byte)} (h : ∀ c ∈ channels, c.length = t) :
    splitChannels t channels.length channels.flatten = channels := by
  induction channels with
  | nil => rfl
  | cons c cs ih =>
    obtain ⟨hc, hcs⟩ := List.forall_mem_cons.mp h
    rw [List.length_cons, List.flatten_cons, splitChannels, List.take_left' hc, List.drop_left' hc, ih hcs]

/-- A bad channel, or a decoder that was faulted before: every sample is discarded. -/
theorem hostDecode_failed {q : Parsed} {s : State} (hq : s.host.parsed = some q)
    (h : (errOf s.dec.fault || q.channels.any badStream) = true) :
    hostDecode s = .next (reply (.failed .invalidData) ((sentPacket .decoder q.channels s).resetPort .decoder)) := by
  have hfail : errOf (runBlock (packetOps .decoder q.channels) (s.block .decoder)).fault = true := by
    rw [runBlock_packet_decoder_err]
    exact h
  simp only [hostDecode, hq, transfer_packet, andThen, newBeats_sent, runFailed_sent, hfail, ↓reduceIte, fail]

/-- No bad channel, and no fault before: every channel decoded. -/
theorem hostDecode_done {q : Parsed} {s : State} (hq : s.host.parsed = some q)
    (h : (errOf s.dec.fault || q.channels.any badStream) = false) :
    hostDecode s = .next (reply (.samples {
      sampleRate := q.header.sampleRate
      channels := splitChannels q.header.totalSamples.toNat q.header.channelCount.toNat (q.channels.map decStream).flatten })
      (sentPacket .decoder q.channels s)) := by
  have hgood : errOf (runBlock (packetOps .decoder q.channels) (s.block .decoder)).fault = false := by
    rw [runBlock_packet_decoder_err]
    exact h
  have hdata := runBeats_packet_data runBeats_decStream_data q.channels (s.block .decoder)
  simp only [hostDecode, hq, transfer_packet, andThen, newBeats_sent, runFailed_sent, hgood, hdata, Bool.false_eq_true, ↓reduceIte]

/-- Inversion of `decode`. -/
theorem hostDecode_next {s t : State} (h : hostDecode s = .next t) :
    ∃ q, s.host.parsed = some q ∧
      (t = reply (.failed .invalidData) ((sentPacket .decoder q.channels s).resetPort .decoder) ∨
        ∃ buffer, t = reply (.samples buffer) (sentPacket .decoder q.channels s)) := by
  cases hq : s.host.parsed with
  | none => simp [hostDecode, hq] at h
  | some q =>
    refine ⟨q, rfl, ?_⟩
    cases hbad : errOf s.dec.fault || q.channels.any badStream with
    | true =>
      rw [hostDecode_failed hq hbad] at h
      exact .inl (Host.Outcome.next.inj h).symm
    | false =>
      rw [hostDecode_done hq hbad] at h
      exact .inr ⟨_, (Host.Outcome.next.inj h).symm⟩

/-- The payload of a packet is its channels laid end to end (R35). -/
theorem Parsed.channels_eq {q : Parsed} {channels : List (List Byte)} (hn : channels.length = q.header.channelCount.toNat)
    (ht : ∀ c ∈ channels, c.length = q.header.totalSamples.toNat) (hp : channels.flatten = q.payload) :
    q.channels = channels := by
  rw [Parsed.channels, ← hn, ← hp, splitChannels_flatten ht]

theorem splitChannels_decoded {t : Nat} {channels : List (List Byte)} (ht : ∀ c ∈ channels, c.length = t) :
    splitChannels t channels.length (channels.map decStream).flatten = channels.map decStream := by
  have hdecoded : ∀ c ∈ channels.map decStream, c.length = t :=
    List.forall_mem_map.mpr fun c hc => (decStream_length c).trans (ht c hc)
  simpa using splitChannels_flatten hdecoded

theorem any_badStream_eq_false {cs : List (List Byte)} (hgood : ∀ c ∈ cs, badStream c = false) : cs.any badStream = false :=
  List.any_eq_false.mpr fun c hc => Bool.eq_false_iff.mp (hgood c hc)

/-- Everything `decode` does of a packet with no bad channel, on an unfaulted decoder. -/
theorem hostDecode_good {q : Parsed} {channels : List (List Byte)} {s : State} (hq : s.host.parsed = some q)
    (hfault : s.dec.fault = 0) (hn : channels.length = q.header.channelCount.toNat)
    (ht : ∀ c ∈ channels, c.length = q.header.totalSamples.toNat) (hp : channels.flatten = q.payload)
    (hgood : ∀ c ∈ channels, badStream c = false) :
    hostDecode s = .next (reply (.samples { sampleRate := q.header.sampleRate, channels := channels.map decStream })
      (sentPacket .decoder channels s)) := by
  have hchannels := Parsed.channels_eq hn ht hp
  have hnone : q.channels.any badStream = false := hchannels ▸ any_badStream_eq_false hgood
  rw [hostDecode_done hq (by rw [hnone, errOf_eq_false.mpr hfault, Bool.false_or]), hchannels, ← hn,
    splitChannels_decoded ht]

/-- The failing side of `decode`, whatever made it fail (R129). -/
theorem hostDecode_discards {q : Parsed} {s : State} (hq : s.host.parsed = some q)
    (h : (errOf s.dec.fault || q.channels.any badStream) = true) :
    ∃ t : State, hostCall .decode s = .next t ∧ t.host = (reply (.failed .invalidData) s).host ∧
      t.dec.fault = 0 ∧ t.dec.run = false ∧ t.dec.outq = [] ∧ t.enc = s.enc :=
  ⟨_, hostDecode_failed hq h, by simp [reply], rfl, rfl, rfl,
    sentPacket_block_other (q := .encoder) (by decide) _ _⟩

/-- A packet with no bad channel leaves an unfaulted decoder unfaulted. -/
theorem runBlock_packet_decoder_fault {cs : List (List Byte)} {b : Block} (hb : b.fault = 0)
    (hgood : ∀ c ∈ cs, badStream c = false) : (runBlock (packetOps .decoder cs) b).fault = 0 := by
  rw [← errOf_eq_false, runBlock_packet_decoder_err, errOf_eq_false.mpr hb, any_badStream_eq_false hgood,
    Bool.or_false]

/-- Settles O55: the packet's channels are those of which its payload is made; without a bad one `hostDecode_good`, else, as on a
faulted decoder, `hostDecode_discards`. -/
theorem decodeIsAllOrNothing : Obligations.DecodeIsAllOrNothing := by
  refine ⟨fun s q channels hq _ hfault hn ht hp => ⟨fun hgood => ?_, fun hbad => ?_⟩, fun s q hq hfault => ?_⟩
  · have hend : (sentPacket .decoder channels s).dec = { runBlock (packetOps .decoder channels) s.dec with outq := [] } :=
      sentPacket_block_same .decoder channels s
    refine ⟨_, hostDecode_good hq hfault hn ht hp hgood, ?_, ?_, congrArg Block.outq hend,
      sentPacket_block_other (q := .encoder) (by decide) _ _⟩
    · rw [reply_replies, sentPacket_host]
    · exact (congrArg Block.fault hend).trans (runBlock_packet_decoder_fault hfault hgood)
  · have hany : q.channels.any badStream = true := by
      rw [Parsed.channels_eq hn ht hp]
      exact List.any_eq_true.mpr hbad
    exact hostDecode_discards hq (by rw [hany, Bool.or_true])
  · exact hostDecode_discards hq (by rw [errOf_eq_true.mpr hfault, Bool.true_or])

end Sys2Proof.Machine
end

