-- ==== Sys2Proof/Proofs/HostInvariant.lean ====
section
/-! The invariant of the host's software under every step: a move that is no call leaves the host's part alone (`takeTurn_host`), and
each call replaces fields of it by values that meet their part of the invariant. -/

namespace Sys2Proof.Machine

/-! ### The moves that are no call -/

theorem acceptWord_host {p : Port} {w : In9} {s t : State} (h : acceptWord p w s = .next t) : t.host = s.host := by
  rw [acceptWord_eq] at h
  cases h
  exact State.setBlock_host _ _ _

theorem blockTurn_host {p : Port} {s t : State} (h : blockTurn p s = .next t) : t.host = s.host := by
  rcases blockTurn_next h with rfl | ⟨w, ws, -, rfl⟩
  · rfl
  · simp

@[simp] theorem edgeSettles_host (p : Port) (pins : PinsIn) (s : State) : (edgeSettles p pins s).host = s.host := by
  unfold edgeSettles
  split <;> simp

theorem edgeTurn_host {p : Port} {pins : PinsIn} {s t : State} (h : edgeTurn p pins s = .next t) : t.host = s.host := by
  unfold edgeTurn at h
  split at h
  · cases h; simp
  · split at h
    · simpa using acceptWord_host h
    · cases h; simp

theorem forwardTurn_host (s : State) : (forwardTurn s).host = s.host := by
  unfold forwardTurn
  split
  · rfl
  · simp [offerWord]

/-- A move is a call of the host's software or leaves the host's part of the state alone. -/
theorem takeTurn_host {x : Turn} {s t : State} (h : takeTurn x s = .next t) :
    t.host = s.host ∨ ∃ c, x = .host c ∧ hostCall c s = .next t := by
  cases x with
  | offer p w => cases h; exact .inl (State.setSource_host _ _ _)
  | block p => exact .inl (blockTurn_host h)
  | sink p => cases h; exact .inl (takeHead_host p s)
  | reset p => cases h; exact .inl (resetPort_host p s)
  | edge p pins => exact .inl (edgeTurn_host h)
  | forward => cases h; exact .inl (forwardTurn_host s)
  | contend p w v => cases h
  | host c => exact .inr ⟨c, rfl, h⟩

/-! ### The host Encoder (R111, R112) -/

theorem HostEncoder.create_inv {rate : BitVec 32} {n : BitVec 16} (hn : n ≠ 0) : (HostEncoder.create rate n).Inv where
  channels := hn
  queues := List.length_replicate
  filled := fun _ q hq => by rw [List.eq_of_mem_replicate hq]; rfl

/-- A queue of the Encoder after `append` is a queue of before with a channel array behind it. -/
theorem mem_append_queues {e : HostEncoder} {f : Frame} {q : List (List Byte)} (h : q ∈ (e.append f).queues) :
    ∃ q₀ ∈ e.queues, ∃ a ∈ f.channels, q = q₀ ++ [a] := by
  rw [HostEncoder.append, ← List.map_uncurry_zip_eq_zipWith] at h
  obtain ⟨⟨q₀, a⟩, hmem, rfl⟩ := List.mem_map.mp h
  obtain ⟨hq₀, ha⟩ := List.of_mem_zip hmem
  exact ⟨q₀, hq₀, a, ha, rfl⟩

/-- A well-formed frame lengthens every queue by its sample count. -/
theorem HostEncoder.Inv.append {e : HostEncoder} {f : Frame} (h : e.Inv) (hlife : e.life = .opened)
    (hf : f.wf e.channelCount = true) : (e.append f).Inv := by
  obtain ⟨hchannels, hqueues, hfilled⟩ := h
  obtain ⟨-, hn, heq⟩ := Frame.wf_iff.mp hf
  have harrays : ∀ a ∈ f.channels, a.length = f.sampleCount := by simpa [Frame.equalLengths] using heq
  refine ⟨hchannels, (append_queues_length (hn.trans hqueues.symm)).trans hqueues, fun _ q hq => ?_⟩
  obtain ⟨q₀, hq₀, a, ha, rfl⟩ := mem_append_queues hq
  have hqueue := hfilled (by rw [hlife]; decide) q₀ hq₀
  rw [List.flatten_append, List.length_append, hqueue, List.flatten_singleton, harrays a ha]
  rfl

theorem HostEncoder.Inv.finalized {e : HostEncoder} (h : e.Inv) (hlife : e.life = .opened) :
    HostEncoder.Inv { e with life := .finalized } := by
  obtain ⟨hchannels, hqueues, hfilled⟩ := h
  exact ⟨hchannels, hqueues, fun _ => hfilled (by rw [hlife]; decide)⟩

/-- A consumed Encoder has released its queue, of which nothing more is asked. -/
theorem HostEncoder.Inv.consumed {e : HostEncoder} (h : e.Inv) :
    HostEncoder.Inv { e with queues := List.replicate e.channelCount.toNat [], life := .consumed } where
  channels := h.channels
  queues := List.length_replicate
  filled := fun hlife => absurd rfl hlife

/-! ### The fields of the host's part -/

theorem HostState.Inv.withEncoder {hs : HostState} (h : hs.Inv) {e : HostEncoder} (he : e.Inv) :
    HostState.Inv { hs with encoder := some e } :=
  { h with encoder := fun _ he' => Option.some.inj he' ▸ he }

theorem HostState.Inv.withPacket {hs : HostState} (h : hs.Inv) {image : Memory} (hi : image.wf = true) :
    HostState.Inv { hs with packet := some image } :=
  { h with packet := fun _ hm => Option.some.inj hm ▸ hi }

theorem HostState.Inv.withoutPacket {hs : HostState} (h : hs.Inv) : HostState.Inv { hs with packet := none } :=
  { h with packet := fun _ hm => (nomatch hm) }

theorem HostState.Inv.withFile {hs : HostState} (h : hs.Inv) {image : Memory} (hi : image.wf = true) :
    HostState.Inv { hs with file := image } :=
  { h with file := hi }

theorem HostState.Inv.withParsed {hs : HostState} (h : hs.Inv) {q : Parsed} (hq : q.Inv) :
    HostState.Inv { hs with parsed := some q } :=
  { h with parsed := fun _ hq' => Option.some.inj hq' ▸ hq }

/-- Answering a caller. -/
theorem HostState.Inv.replied {s : State} (h : s.host.Inv) {r : Reply} (hr : r.memoryOk = true) : (reply r s).host.Inv :=
  { h with replies := fun _ hmem => (List.mem_append.mp hmem).elim (h.replies _) fun hnew =>
      List.mem_singleton.mp hnew ▸ hr }

/-! ### The calls -/

theorem packetImage_wf {t : Nat} {h : Header} {payload : List Byte} {image : Memory}
    (himage : packetImage t h payload = some image) : image.wf = true := by
  obtain ⟨m, hheader, hpayload⟩ := Option.bind_eq_some_iff.mp himage
  obtain ⟨hm, -⟩ := Memory.store_wf (Memory.blank_wf _) hheader
  obtain ⟨hwf, -⟩ := Memory.store_wf hm hpayload
  exact hwf

/-- Every call of the host's software keeps the invariant. -/
theorem hostCall_inv {c : HostCall} {s t : State} (hs : s.host.Inv) (h : hostCall c s = .next t) : t.host.Inv := by
  cases c with
  | create rate n =>
    simp only [hostCall, hostCreate] at h
    split at h
    · cases h
    · next hn =>
      cases h
      exact HostState.Inv.replied (hs.withEncoder (HostEncoder.create_inv hn)).withoutPacket rfl
  | push frame =>
    rcases hostPush_next h with ⟨k, rfl⟩ | ⟨e, f, he, hlife, hf, rfl⟩
    · exact hs.replied rfl
    · exact HostState.Inv.replied (hs.withEncoder ((hs.encoder e he).append hlife hf)) rfl
  | finish =>
    rcases hostFinish_next h with ⟨k, rfl⟩ | ⟨e, he, hlife, rfl⟩
    · exact hs.replied rfl
    · exact HostState.Inv.replied (hs.withEncoder ((hs.encoder e he).finalized hlife)) rfl
  | buildPacket =>
    rcases hostBuildPacket_next h with ⟨k, rfl⟩ | ⟨e, he, hproduce⟩
    · exact hs.replied rfl
    · rcases producePacket_next hproduce with rfl | ⟨image, himage, rfl⟩
      · have hsent : ((sentPacket .encoder e.streams s).resetPort .encoder).host.Inv := by simpa using hs
        exact hsent.replied rfl
      · have hwf := packetImage_wf himage
        have hsent : (sentPacket .encoder e.streams s).host.Inv := by simpa using hs
        exact HostState.Inv.replied ((hsent.withEncoder (hs.encoder e he).consumed).withPacket hwf) hwf
  | write =>
    rcases hostWrite_next h with ⟨k, rfl⟩ | ⟨image, himage, rfl⟩
    · exact hs.replied rfl
    · have hfile := hs.withFile (hs.packet image himage)
      exact HostState.Inv.replied (s := { s with host := { s.host with file := image } }) hfile rfl
  | load bytes =>
    cases h
    exact hs.withFile (Memory.ofBytes_wf bytes)
  | read =>
    rcases hostRead_next h with ⟨k, rfl⟩ | ⟨q, hq, rfl⟩
    · exact hs.replied rfl
    · obtain ⟨hok, rfl⟩ := readFile_eq_some_iff.mp hq
      exact HostState.Inv.replied (hs.withParsed (parsedOf_inv hok)) rfl
  | decode =>
    obtain ⟨q, -, rfl | ⟨buffer, rfl⟩⟩ := hostDecode_next h
    · have hsent : ((sentPacket .decoder q.channels s).resetPort .decoder).host.Inv := by simpa using hs
      exact hsent.replied rfl
    · have hsent : (sentPacket .decoder q.channels s).host.Inv := by simpa using hs
      exact hsent.replied rfl
  | fileByte off =>
    simp only [hostCall, hostFileByte] at h
    split at h
    · cases h
    · cases h
      exact hs.replied rfl

/-- Settles O45: the step is a call, or leaves the host's part alone. -/
theorem stepKeepsTheHostInvariant : Obligations.StepKeepsTheHostInvariant := by
  intro s t hs h
  rcases step_turn h with ⟨-, rfl⟩ | ⟨x, xs, -, hx⟩
  · exact hs
  · rcases takeTurn_host hx with hhost | ⟨c, -, hcall⟩
    · exact hhost ▸ hs
    · exact hostCall_inv (s := { s with turns := xs }) hs hcall

end Sys2Proof.Machine
end

