-- ==== Sys2Proof/Proofs/EndToEnd.lean ====
section
/-! From a finalized Encoder over packet, file and reader to the reconstructed samples (R110): one step per call, each with what it
leaves in the host's part of the state, and the round trip of the channels. -/

namespace Sys2Proof.Machine

/-! ### The packet of an Encoder -/

/-- What the reader hands on of an Encoder's packet. -/
def HostEncoder.parsed (e : HostEncoder) : Parsed := { header := e.header, payload := e.payload }

/-- The packet of an Encoder whose total fits the header's field (R6) is one the reader admits. -/
theorem HostEncoder.Inv.parsed {e : HostEncoder} (h : e.Inv) (hlife : e.life = .finalized) (hpos : 0 < e.totalSamples)
    (hmax : e.totalSamples < 2 ^ 32) : e.parsed.Inv where
  channels := h.channels
  total := by
    refine BitVec.toNat_ne.mpr ?_
    rw [HostEncoder.parsed, HostEncoder.header, totalField_toNat hmax]
    exact hpos.ne'
  size := by rw [HostEncoder.parsed, HostEncoder.header, totalField_toNat hmax, h.payload_length hlife]

/-! ### One step per call -/

theorem step_host {c : HostCall} {ts : List Turn} {s t : State} (hturns : s.turns = .host c :: ts)
    (h : hostCall c { s with turns := ts } = .next t) : step s = .next t := (step_of_turns hturns).trans h

theorem step_buildPacket {e : HostEncoder} {ts : List Turn} {s : State} (hturns : s.turns = .host .buildPacket :: ts)
    (he : s.host.encoder = some e) (hinv : e.Inv) (hlife : e.life = .finalized) (hpos : 0 < e.totalSamples)
    (hfault : s.enc.fault = 0) :
    ∃ (t : State) (image : Memory) (e' : HostEncoder), step s = .next t ∧ t.turns = ts ∧ t.dec = s.dec ∧
      image.bytes = writeHeader e.header ++ e.payload ∧ e'.life = .consumed ∧
      t.host = { s.host with encoder := some e', packet := some image, replies := s.host.replies ++ [.packet image] } := by
  obtain ⟨image, hcall, -, -, hbytes⟩ := hostBuildPacket_done (s := { s with turns := ts }) he hinv hlife hpos hfault
  exact ⟨_, image, { e with queues := List.replicate e.channelCount.toNat [], life := .consumed }, step_host hturns hcall,
    by simp [deliverPacket], sentPacket_block_other (q := .decoder) (by decide) _ _, hbytes, rfl,
    by simp only [deliverPacket, reply, sentPacket_host]⟩

theorem step_write {e : HostEncoder} {image : Memory} {ts : List Turn} {s : State} (hturns : s.turns = .host .write :: ts)
    (he : s.host.encoder = some e) (hlife : e.life ≠ .opened) (hp : s.host.packet = some image) :
    ∃ t, step s = .next t ∧ t.turns = ts ∧ t.dec = s.dec ∧
      t.host = { s.host with file := image, replies := s.host.replies ++ [.ok] } :=
  ⟨_, step_host hturns (hostWrite_packet (s := { s with turns := ts }) he hlife hp), rfl, rfl, rfl⟩

theorem step_read {q : Parsed} {ts : List Turn} {s : State} (hturns : s.turns = .host .read :: ts)
    (hq : readFile s.host.file = some q) :
    ∃ t, step s = .next t ∧ t.turns = ts ∧ t.dec = s.dec ∧
      t.host = { s.host with parsed := some q, replies := s.host.replies ++ [.header q] } :=
  ⟨_, step_host hturns (hostRead_some (s := { s with turns := ts }) hq), rfl, rfl, rfl⟩

theorem step_decode {q : Parsed} {channels : List (List Byte)} {ts : List Turn} {s : State}
    (hturns : s.turns = .host .decode :: ts) (hq : s.host.parsed = some q) (hfault : s.dec.fault = 0)
    (hn : channels.length = q.header.channelCount.toNat) (ht : ∀ c ∈ channels, c.length = q.header.totalSamples.toNat)
    (hp : channels.flatten = q.payload) (hgood : ∀ c ∈ channels, badStream c = false) :
    ∃ t, step s = .next t ∧
      t.host = { s.host with replies := s.host.replies ++
        [.samples { sampleRate := q.header.sampleRate, channels := channels.map decStream }] } :=
  ⟨_, step_host hturns (hostDecode_good (s := { s with turns := ts }) hq hfault hn ht hp hgood), by
    simp only [reply, sentPacket_host]⟩

/-! ### The whole way -/

/-- Decoding the encoded channels gives the reconstructed streams (R97). -/
theorem map_decStream_encStream (cs : List (List Byte)) : (cs.map encStream).map decStream = cs.map recStream := by
  rw [List.map_map]
  exact List.map_congr_left fun c _ => decStream_encStream c

/-- Settles O56: the four steps in order, and the round trip of every channel. -/
theorem packetTravelsEndToEnd : Obligations.PacketTravelsEndToEnd := by
  intro s e he hinv hlife hpos hmax hencFault hdecFault hturns
  obtain ⟨s₁, image, e', hbuild, hturns₁, hdec₁, hbytes, hlife', hhost₁⟩ :=
    step_buildPacket hturns he hinv hlife hpos hencFault
  obtain ⟨s₂, hwrite, hturns₂, hdec₂, hhost₂⟩ :=
    step_write (image := image) hturns₁ (congrArg HostState.encoder hhost₁) (by rw [hlife']; decide)
      (congrArg HostState.packet hhost₁)
  have hfile : s₂.host.file = image := congrArg HostState.file hhost₂
  obtain ⟨s₃, hread, hturns₃, hdec₃, hhost₃⟩ :=
    step_read hturns₂ (hfile.symm ▸ readFile_packet (hinv.parsed hlife hpos hmax) hbytes)
  obtain ⟨hn, ht⟩ := hinv.encoded hlife
  obtain ⟨t, hdecode, hhost⟩ := step_decode hturns₃ (congrArg HostState.parsed hhost₃)
    ((congrArg Block.fault (hdec₃.trans (hdec₂.trans hdec₁))).trans hdecFault) hn
    (fun c hc => (ht c hc).trans (totalField_toNat hmax).symm) rfl
    (List.forall_mem_map.mpr fun c _ => badStream_encStream c)
  refine ⟨t, image, e.parsed, ?_, by rw [hhost, hhost₃, hfile], by rw [hhost, hhost₃], ?_⟩
  · exact (run_of_step hbuild 3).trans ((run_of_step hwrite 2).trans ((run_of_step hread 1).trans (run_of_step hdecode 0)))
  · rw [hhost, hhost₃, hhost₂, hhost₁, map_decStream_encStream]
    simp only [List.append_assoc]
    rfl

end Sys2Proof.Machine
end

