-- ==== Sys2Proof/Proofs/FaultBits.lean ====
section
/-! The fault bits: which operation sets which (R150, R151, R153), what it puts out when it does, and that only a reset clears one
(R155). Each bit has one lemma that says when an operation sets it, `opBlock_proto` and `opBlock_invalidData`. -/

namespace Sys2Proof.Machine

/-! ### Only a reset clears a bit (R155) -/

/-- No move but a reset clears a bit of `fault`: of the moves of a path only an operation writes the register. -/
theorem PortPath.fault_keeps {p : Port} {b₁ b₂ : Block} {k₁ k₂ : List OutBeat} (h : PortPath p b₁ k₁ b₂ k₂) {k : Nat} :
    b₁.fault.getLsbD k = true → b₂.fault.getLsbD k = true := by
  induction h with
  | refl b tk => exact id
  | take b tk e es hq => exact id
  | drain b tk => exact id
  | tick b tk => exact id
  | op b tk i _ _ => exact opBlock_fault_keeps i b k
  | trans _ _ ih₁ ih₂ => exact ih₂ ∘ ih₁

/-- Settles O27: a step is a path of the port, which keeps the bit, unless a reset ends it. -/
theorem onlyResetClearsAFault : Obligations.OnlyResetClearsAFault := by
  intro p k s t h hset hcleared
  rcases step_port p h with path | ⟨b, -, hclear, -⟩
  · exact absurd (path.fault_keeps hset) (Bool.eq_false_iff.mp hcleared)
  · rw [hclear]
    exact ⟨rfl, rfl, rfl⟩

/-! ### `PROTO` (R151) -/

/-- An operation sets bit 0 exactly if it is a NEXT while `run = 0`. -/
theorem opBlock_proto (i : Instr) (b : Block) :
    (opBlock i b).fault.getLsbD 0 = (b.fault.getLsbD 0 || (!i.isFirst && !b.run)) := by
  cases hrun : b.run with
  | true => simpa using opBlock_proto_of_run i hrun
  | false =>
    cases hfirst : i.isFirst with
    | true => simp [opBlock_fault_first hfirst]
    | false => simp [opBlock_fault_idle hrun hfirst]

theorem Block.status_proto (b : Block) : b.status.getLsbD 1 = b.fault.getLsbD 0 := by
  obtain ⟨-, hproto, -⟩ := statusShowsRunAndFaults b
  exact hproto

theorem Block.status_invalidData (b : Block) : b.status.getLsbD 2 = b.fault.getLsbD 1 := by
  obtain ⟨-, -, hinvalid⟩ := statusShowsRunAndFaults b
  exact hinvalid

theorem errOf_of_bit {f : FaultBits} {k : Nat} (h : f.getLsbD k = true) : errOf f = true := by
  rw [errOf_eq_true]
  rintro rfl
  simp at h

/-- The beat of an operation that leaves a bit of `fault` set is flagged. -/
theorem opBlock_beats_of_fault {i : Instr} {b : Block} {k : Nat} (hk : (opBlock i b).fault.getLsbD k = true) :
    (opBlock i b).beats = b.beats ++ [{ first := i.isFirst, err := true, data := (newBeat i b).data }] := by
  rw [opBlock_beats, ← errOf_of_bit hk]
  rfl

/-- What `opBlock_first` says, of an operation given as such. -/
theorem opBlock_of_first {i : Instr} (h : i.isFirst = true) (b : Block) :
    opBlock i b = Block.startStream i.byte b ∧ newBeat i b = { first := true, err := errOf b.fault, data := i.byte } := by
  have hi := decodeBeat_fields i
  rw [h] at hi
  simpa only [hi] using opBlock_first i.port i.byte b

/-- `exec_eq` at a port known by another name. -/
theorem exec_of_port {i : Instr} {p : Port} (h : i.port = p) (s : State) :
    exec i s = .next (s.setBlock p (opBlock i (s.block p))) := by
  rw [← h, exec_eq]

/-- A NEXT of a block whose bit 0 is set: the bit stays, and the beat is flagged. -/
theorem exec_next_of_proto {j : Instr} {p : Port} (hp : j.port = p) (hnext : j.isFirst = false) {t : State}
    (hproto : (t.block p).fault.getLsbD 0 = true) :
    ∃ (u : State) (x : Byte), exec j t = .next u ∧ (u.block p).fault.getLsbD 0 = true ∧
      (u.block p).beats = (t.block p).beats ++ [{ first := false, err := true, data := x }] := by
  have hkept := opBlock_fault_keeps j _ 0 hproto
  refine ⟨_, (newBeat j (t.block p)).data, exec_of_port hp t, ?_, ?_⟩
  · rwa [State.setBlock_block_same]
  · rw [State.setBlock_block_same, opBlock_beats_of_fault hkept, hnext]

/-- A FIRST of a block whose bit 0 is set starts the stream as ever, and its beat is flagged. -/
theorem exec_first_of_proto {j : Instr} {p : Port} (hp : j.port = p) (hfirst : j.isFirst = true) {t : State}
    (hproto : (t.block p).fault.getLsbD 0 = true) :
    ∃ u : State, exec j t = .next u ∧ (u.block p).run = true ∧ (u.block p).prev = j.byte ∧
      (u.block p).beats = (t.block p).beats ++ [{ first := true, err := true, data := j.byte }] := by
  obtain ⟨hblock, hbeat⟩ := opBlock_of_first hfirst (t.block p)
  refine ⟨_, exec_of_port hp t, ?_, ?_, ?_⟩
  · rw [State.setBlock_block_same, hblock, Block.startStream_run]
  · rw [State.setBlock_block_same, hblock, Block.startStream_prev]
  · rw [State.setBlock_block_same, opBlock_beats, hbeat, errOf_of_bit hproto]

/-- Settles O23: bit 0 by `opBlock_proto`; what follows a fault rests on the bit alone, which no operation clears. -/
theorem protoIsRaisedExactlyByNextBeforeFirst : Obligations.ProtoIsRaisedExactlyByNextBeforeFirst := by
  refine ⟨fun i s t h => ?_, fun i s t hnext hidle h => ?_⟩
  · obtain rfl := exec_next h
    rw [State.setBlock_block_same, opBlock_proto]
  · have hblock : t.block i.port = opBlock i (s.block i.port) := by
      rw [exec_next h, State.setBlock_block_same]
    have hproto : (t.block i.port).fault.getLsbD 0 = true := by
      rw [hblock, opBlock_proto, hnext, hidle]
      simp
    refine ⟨hproto, (Block.status_proto _).trans hproto, ?_, ?_, ⟨(newBeat i (s.block i.port)).data, ?_⟩,
      fun j hp hj => exec_next_of_proto hp hj hproto, fun j hp hj => exec_first_of_proto hp hj hproto⟩
    · rw [hblock, opBlock_prev_idle hnext hidle]
    · rw [hblock, opBlock_run, hidle, hnext]
      rfl
    · rw [hblock] at hproto ⊢
      rw [opBlock_beats_of_fault hproto, hnext]

/-! ### `INVALID_DATA` (R150) -/

/-- The fault condition of R150: a DEC.NEXT with `run = 1` whose sum lies outside 0..255. -/
def hasBadSum : Instr → Block → Bool
  | .encFirst _, _ => false
  | .encNext _, _ => false
  | .decFirst _, _ => false
  | .decNext x, b => b.run && sumOutOfRange (decodeSum b.prev x)

theorem hasBadSum_idle (i : Instr) {b : Block} (h : b.run = false) : hasBadSum i b = false := by
  cases i <;> simp [hasBadSum, h]

/-- An operation sets bit 1 exactly if it has a bad sum. -/
theorem opBlock_invalidData (i : Instr) (b : Block) :
    (opBlock i b).fault.getLsbD 1 = (b.fault.getLsbD 1 || hasBadSum i b) := by
  cases i with
  | encFirst x => exact (opBlock_encoder_invalidData rfl b).trans (Bool.or_false _).symm
  | encNext x => exact (opBlock_encoder_invalidData rfl b).trans (Bool.or_false _).symm
  | decFirst x => exact (Bool.or_false _).symm
  | decNext x =>
    cases hrun : b.run with
    | false => simp [opBlock_fault_idle (i := .decNext x) hrun rfl, hasBadSum, hrun]
    | true =>
      cases hsum : sumOutOfRange (decodeSum b.prev x) <;>
        simp [opBlock_fault, hasBadSum, Instr.isFirst, hrun, hsum]

/-- The effect of a bad sum on the decoder: the bit, and a flagged beat with the saturated value, which `prev` takes. -/
theorem opBlock_decNext_bad {x : Byte} {b : Block} (hrun : b.run = true) (hsum : sumOutOfRange (decodeSum b.prev x) = true) :
    (opBlock (.decNext x) b).fault.getLsbD 1 = true ∧ (opBlock (.decNext x) b).prev = nextDec b.prev x ∧
      (opBlock (.decNext x) b).beats = b.beats ++ [{ first := false, err := true, data := nextDec b.prev x }] := by
  have hbit : (opBlock (.decNext x) b).fault.getLsbD 1 = true := by
    simp [opBlock_invalidData, hasBadSum, hrun, hsum]
  have hdata : (newBeat (.decNext x) b).data = nextDec b.prev x := if_pos hrun
  refine ⟨hbit, ?_, ?_⟩
  · rw [opBlock_prev]
    exact if_pos hrun
  · rw [opBlock_beats_of_fault hbit, hdata]
    rfl

/-- Settles O24: bit 1 by `opBlock_invalidData`, the effect by `opBlock_decNext_bad`, and the encoder's streams by
`badStream_encStream`. -/
theorem invalidDataIsRaisedExactlyByABadSum : Obligations.InvalidDataIsRaisedExactlyByABadSum := by
  refine ⟨fun i s t h => ?_, fun b s t hrun h hsum => ?_, fun s _ => badStream_encStream s⟩
  · obtain rfl := exec_next h
    rw [State.setBlock_block_same, opBlock_invalidData]
    cases i <;> rfl
  · obtain ⟨hbit, hprev, hbeats⟩ := opBlock_decNext_bad hrun ((sumOutOfRange_iff _).mpr hsum)
    obtain rfl := exec_next h
    refine ⟨hbit, (Block.status_invalidData _).trans hbit, ?_, ?_⟩
    · exact (congrArg (fun v : Byte => (v.toNat : Int)) hprev).trans (nextDec_toNat s.dec.prev b)
    · rw [← hprev] at hbeats
      exact hbeats

/-! ### At most one fault in an operation (R153) -/

/-- Settles O25: the two conditions disagree on `run`, so a running block keeps bit 0 and an idle one bit 1. -/
theorem anOperationRaisesAtMostOneFault : Obligations.AnOperationRaisesAtMostOneFault := by
  intro i s t h
  obtain rfl := exec_next h
  rw [State.setBlock_block_same]
  have hidle : (s.block i.port).run = false →
      (opBlock i (s.block i.port)).fault.getLsbD 1 = (s.block i.port).fault.getLsbD 1 := fun hrun => by
    rw [opBlock_invalidData, hasBadSum_idle i hrun, Bool.or_false]
  refine ⟨?_, hidle⟩
  rintro ⟨hproto, hproto', hinvalid, hinvalid'⟩
  cases hrun : (s.block i.port).run with
  | true =>
    rw [opBlock_proto_of_run i hrun, hproto] at hproto'
    cases hproto'
  | false =>
    rw [hidle hrun, hinvalid] at hinvalid'
    cases hinvalid'

/-! ### Nothing to do (R165) -/

theorem step_idle {s : State} (h : s.turns = []) : step s = .next s := by
  simp [step, nextTurn, h]

theorem blockTurn_nothingOffered {p : Port} {s : State} (h : s.source p = []) : blockTurn p s = .next s := by
  simp [blockTurn, h]

/-- Settles O42: no turn is to come, or the block's turn finds nothing offered. -/
theorem idleMachineKeepsItsState : Obligations.IdleMachineKeepsItsState := by
  refine fun s => ⟨step_idle, fun p ts hturns hsource => ?_⟩
  rw [step_of_turns hturns]
  exact blockTurn_nothingOffered (by simpa using hsource)

end Sys2Proof.Machine
end

