-- ==== Sys2Proof/Proofs/ResetEdge.lean ====
section
/-! The edge with `rst = 1` (R170). What it does to the state is `edgeTurn_of_rst`; here stand the pins the block drives at it and its frame. -/

namespace Sys2Proof.Machine

/-- While `rst = 1` the block drives `in_ready = 0` (R170). -/
theorem outPins_inReady_of_rst (p : Port) (b : Block) : (outPins p true b).inReady = false := rfl

/-- While `rst = 1` the block drives `out_valid = 0` (R170). -/
theorem outPins_outValid_of_rst (p : Port) (b : Block) : (outPins p true b).outValid = false := rfl

/-- A reset writes its own block and nothing else. -/
theorem resetPort_eq_setBlock (p : Port) (s : State) : s.resetPort p = s.setBlock p ((s.resetPort p).block p) :=
  congrArg (s.setBlock p) (State.setBlock_block_same p _ s).symm

/-- Settles O34: the edge is a reset (`edgeTurn_of_rst`), whose values are those of `resetStateIsAsStated`. -/
theorem resetEdgeOverridesEverything : Obligations.ResetEdgeOverridesEverything := by
  intro p pins s hrst
  obtain ⟨hrun, hfault, houtq, -, htaken⟩ := (resetStateIsAsStated p).2 s
  have hsource : (s.resetPort p).source p = s.source p := State.setBlock_source p _ s p
  rw [hrst]
  exact ⟨s.resetPort p, edgeTurn_of_rst hrst s, hrun, hfault, houtq, resetPort_eq_setBlock p s, htaken, hsource,
    outPins_inReady_of_rst p _, outPins_outValid_of_rst p _⟩

end Sys2Proof.Machine
end
